-- ==== Sys2Proof/Word.lean ====
section
/-! DEFINITION. The word and byte types and the register index type (00_scope.md R7, R9, R10). -/

namespace Sys2Proof

/-- A 32-bit pattern: a general register, the PC, an address, a memory word, an instruction (R7 `XLEN`, R10). -/
abbrev Word := BitVec 32

/-- Eight bits of a data word, the unit of the model's memory list (log 1). -/
abbrev Byte := BitVec 8

/-- Index of a general register, `0 .. 31` (R7 `NREGS`, R20). -/
abbrev Reg := Fin 32

end Sys2Proof
end

