-- ==== Sys2Proof/Machine/OpcodeMap.lean ====
section
/-! DEFINITION. The opcode map (30_encoding.md R92), as data: a field of the configuration, so that a corrected numeral
changes no semantics. -/

namespace Sys2Proof

/-- The eight opcodes and, under the opcode `special`, the eight functs. -/
structure OpcodeMap where
  /-- Opcode of every R-type word. -/
  special : BitVec 6
  j : BitVec 6
  jal : BitVec 6
  beq : BitVec 6
  bne : BitVec 6
  addi : BitVec 6
  lw : BitVec 6
  sw : BitVec 6
  /-- From here on functs. -/
  sll : BitVec 6
  srl : BitVec 6
  jr : BitVec 6
  add : BitVec 6
  sub : BitVec 6
  and : BitVec 6
  or : BitVec 6
  slt : BitVec 6
  deriving DecidableEq, Repr

/-- The eight opcodes, in the order of R95. -/
def OpcodeMap.opcodes (m : OpcodeMap) : List (BitVec 6) :=
  [m.special, m.j, m.jal, m.beq, m.bne, m.addi, m.lw, m.sw]

/-- The eight functs, in the order of R95. -/
def OpcodeMap.functs (m : OpcodeMap) : List (BitVec 6) :=
  [m.sll, m.srl, m.jr, m.add, m.sub, m.and, m.or, m.slt]

/-- A map is legal when it has the two numerals the source gives (R92) and tells the fifteen instructions apart (log 3). -/
def OpcodeMap.legal (m : OpcodeMap) : Bool :=
  decide (m.special = 0b000000#6) && decide (m.jr = 0b001000#6) && decide m.opcodes.Nodup && decide m.functs.Nodup

/-- The map of R92. All numerals but `special` and `jr` are the spec's general knowledge (D1, log 3). -/
def defaultOpcodes : OpcodeMap where
  special := 0b000000#6
  j := 0b000010#6
  jal := 0b000011#6
  beq := 0b000100#6
  bne := 0b000101#6
  addi := 0b001000#6
  lw := 0b100011#6
  sw := 0b101011#6
  sll := 0b000000#6
  srl := 0b000010#6
  jr := 0b001000#6
  add := 0b100000#6
  sub := 0b100010#6
  and := 0b100100#6
  or := 0b100101#6
  slt := 0b101010#6

end Sys2Proof
end

