-- ==== Sys2Proof/Config.lean ====
section
/-! DEFINITION. The configuration record: the parameters of the hardware (00_scope.md R7) and its opcode map (30_encoding.md
R92, D1). -/

namespace Sys2Proof

/-- `ZERO_WRITE`: what a write to register 0 does (R7, R24, U1). -/
inductive ZeroWrite where
  /-- The write is discarded and the instruction completes. -/
  | ignore
  /-- The step ends in an error and changes nothing. -/
  | fail
  deriving DecidableEq, Repr

/-- `ASM_MODE`: the assembler's error policy. `strict` is the one value the spec gives a behaviour (R7, R230, U3); the
lenient mode of the source is not specified and a model has none (U7). -/
inductive AsmMode where
  | strict
  deriving DecidableEq, Repr

/-- The parameters of R7 and the opcode map of R92. `XLEN` and `NREGS` are the types `Word` and `Reg`. A machine's
configuration is a field of its state that no event changes (log 2). -/
structure Config where
  /-- `BASE_INSTR`: address of instruction slot 0 and reset value of the PC. -/
  baseInstr : Word
  /-- `BASE_DATA`: address of data slot 0 and reset value of `$sp`. -/
  baseData : Word
  /-- `IMEM_WORDS`: capacity of the instruction memory in words. -/
  imemWords : Nat
  /-- `DMEM_WORDS`: capacity of the data memory in words. -/
  dmemWords : Nat
  /-- `ZERO_WRITE`. -/
  zeroWrite : ZeroWrite
  /-- `ASM_MODE`. -/
  asmMode : AsmMode
  /-- The opcode map, which assembler and CPU share (R92, D1). -/
  opcodes : OpcodeMap
  deriving DecidableEq, Repr

/-- The legal values: capacities in `1 .. 262144` (R7, U10), the one data base (D4, U2), an instruction base that is a
multiple of 4 (D3) and from which the whole instruction memory lies in the address space (log 2). Both values of
`ZERO_WRITE` are legal (U1). Of opcode maps see `OpcodeMap.legal` (log 3).
DESIGN CHOICE: an instruction memory may end exactly at `2 ^ 32`, and then the fall off a full program's last word wraps the
PC to 0 (log 24). -/
def Config.legal (c : Config) : Bool :=
  decide (c.baseInstr.toNat % 4 = 0) && decide (c.baseInstr.toNat + 4 * c.imemWords ≤ 2 ^ 32) &&
  decide (c.baseData = 0xFFFFFFFF#32) &&
  decide (1 ≤ c.imemWords) && decide (c.imemWords ≤ 262144) &&
  decide (1 ≤ c.dmemWords) && decide (c.dmemWords ≤ 262144) && c.opcodes.legal

/-- What this hardware takes: the value column of R7 (D3, D4, D5, D7, D15) and the table of R92 (D1). -/
def defaultConfig : Config where
  baseInstr := 0x00400000#32
  baseData := 0xFFFFFFFF#32
  imemWords := 128
  dmemWords := 128
  zeroWrite := .ignore
  asmMode := .strict
  opcodes := defaultOpcodes

end Sys2Proof
end

