-- ==== Sys2Proof/Syntax.lean ====
section
/-! DEFINITION. The fifteen instructions (00_scope.md R2, opcode_table.json), operands in the order of the
assembler's syntax (44_assembler.md R207 to R213). -/

namespace Sys2Proof

/-- One constructor per row of the opcode table, in the table's order. Register operands are indices;
shift amounts, immediates, offsets, branch displacements (in words) and jump fields are the exact numbers the
fields stand for, and `Instr.wf` bounds them (log 9). -/
inductive Instr where
  | sll (rd rt : Reg) (shamt : Nat)
  | srl (rd rt : Reg) (shamt : Nat)
  | jr (rs : Reg)
  | add (rd rs rt : Reg)
  | sub (rd rs rt : Reg)
  | and (rd rs rt : Reg)
  | or (rd rs rt : Reg)
  | slt (rd rs rt : Reg)
  | j (target : Nat)
  | jal (target : Nat)
  | beq (rs rt : Reg) (disp : Int)
  | bne (rs rt : Reg) (disp : Int)
  | addi (rt rs : Reg) (imm : Int)
  | lw (rt : Reg) (offset : Int) (rs : Reg)
  | sw (rt : Reg) (offset : Int) (rs : Reg)
  deriving DecidableEq, Repr

/-- The mnemonic of an instruction, as the assembler spells it (R200). -/
def Instr.mnemonic : Instr → String
  | .sll _ _ _ => "sll"
  | .srl _ _ _ => "srl"
  | .jr _ => "jr"
  | .add _ _ _ => "add"
  | .sub _ _ _ => "sub"
  | .and _ _ _ => "and"
  | .or _ _ _ => "or"
  | .slt _ _ _ => "slt"
  | .j _ => "j"
  | .jal _ => "jal"
  | .beq _ _ _ => "beq"
  | .bne _ _ _ => "bne"
  | .addi _ _ _ => "addi"
  | .lw _ _ _ => "lw"
  | .sw _ _ _ => "sw"

end Sys2Proof
end

