-- ==== Sys2Proof/WellFormed.lean ====
section
/-! DEFINITION. When an instruction's operands fit their fields, and when a program fits the instruction memory. -/

namespace Sys2Proof

/-- A shift amount fits the 5-bit field: "shift amount must be in `[0,31]`" (R91, R208). -/
def shamtFits (n : Int) : Bool := decide (0 ≤ n) && decide (n ≤ 31)

/-- A number fits a signed 16-bit field, `[-32768, 32767]` (R88, R89, R210, R211, R212). -/
def imm16Fits (n : Int) : Bool := decide (-32768 ≤ n) && decide (n ≤ 32767)

/-- A jump field has 26 bits (R84, R90). -/
def targetFits (n : Nat) : Bool := decide (n < 2 ^ 26)

/-- Every operand lies in the range of its field. Register indices do so by their type. -/
def Instr.wf : Instr → Bool
  | .sll _ _ shamt => shamtFits shamt
  | .srl _ _ shamt => shamtFits shamt
  | .jr _ => true
  | .add _ _ _ => true
  | .sub _ _ _ => true
  | .and _ _ _ => true
  | .or _ _ _ => true
  | .slt _ _ _ => true
  | .j target => targetFits target
  | .jal target => targetFits target
  | .beq _ _ disp => imm16Fits disp
  | .bne _ _ disp => imm16Fits disp
  | .addi _ _ imm => imm16Fits imm
  | .lw _ offset _ => imm16Fits offset
  | .sw _ offset _ => imm16Fits offset

/-- A program fits the instruction memory (R38, R262). The words themselves are not validated (R38). -/
def programFits (c : Config) (words : List Word) : Bool := decide (words.length ≤ c.imemWords)

end Sys2Proof
end

