-- ==== Sys2Proof/Decode.lean ====
section
/-! DEFINITION. The fields of a word, the decoder (total on every word), the encoder, the
match/mask table and the binary-string form (30_encoding.md). Everything that depends on the opcode map (R92) takes it as its
first argument. -/

namespace Sys2Proof

/-! ## Fields of a word (R82, R83, R84) -/

/-- Bits 31..26. -/
def opcodeField (w : Word) : BitVec 6 := w.extractLsb' 26 6
/-- Bits 25..21. -/
def rsField (w : Word) : Reg := (w.extractLsb' 21 5).toFin
/-- Bits 20..16. -/
def rtField (w : Word) : Reg := (w.extractLsb' 16 5).toFin
/-- Bits 15..11. -/
def rdField (w : Word) : Reg := (w.extractLsb' 11 5).toFin
/-- Bits 10..6. -/
def shamtField (w : Word) : Nat := (w.extractLsb' 6 5).toNat
/-- Bits 5..0. -/
def functField (w : Word) : BitVec 6 := w.extractLsb' 0 6
/-- Bits 15..0, read in two's complement (R83, R87). -/
def immField (w : Word) : Int := (w.extractLsb' 0 16).toInt
/-- Bits 25..0. -/
def targetField (w : Word) : Nat := (w.extractLsb' 0 26).toNat

/-! ## Decode (R86, R93, R95) -/

/-- Why a word is not an instruction (R95). -/
inductive DecodeError where
  /-- The opcode is none of the eight. -/
  | unsupportedOpcode (opcode : BitVec 6)
  /-- The opcode is 0 and the funct is none of the eight. -/
  | unsupportedFunct (funct : BitVec 6)
  deriving DecidableEq, Repr

/-- R-type words: dispatch by funct; a field the instruction does not use is not looked at (R94). -/
def decodeRType (m : OpcodeMap) (w : Word) : Except DecodeError Instr :=
  let funct := functField w
  if funct = m.sll then .ok (.sll (rdField w) (rtField w) (shamtField w))
  else if funct = m.srl then .ok (.srl (rdField w) (rtField w) (shamtField w))
  else if funct = m.jr then .ok (.jr (rsField w))
  else if funct = m.add then .ok (.add (rdField w) (rsField w) (rtField w))
  else if funct = m.sub then .ok (.sub (rdField w) (rsField w) (rtField w))
  else if funct = m.and then .ok (.and (rdField w) (rsField w) (rtField w))
  else if funct = m.or then .ok (.or (rdField w) (rsField w) (rtField w))
  else if funct = m.slt then .ok (.slt (rdField w) (rsField w) (rtField w))
  else .error (.unsupportedFunct funct)

/-- The decoder, total on every word: dispatch by opcode, then for R-type by funct (R86). -/
def decode (m : OpcodeMap) (w : Word) : Except DecodeError Instr :=
  let opcode := opcodeField w
  if opcode = m.special then decodeRType m w
  else if opcode = m.j then .ok (.j (targetField w))
  else if opcode = m.jal then .ok (.jal (targetField w))
  else if opcode = m.beq then .ok (.beq (rsField w) (rtField w) (immField w))
  else if opcode = m.bne then .ok (.bne (rsField w) (rtField w) (immField w))
  else if opcode = m.addi then .ok (.addi (rtField w) (rsField w) (immField w))
  else if opcode = m.lw then .ok (.lw (rtField w) (immField w) (rsField w))
  else if opcode = m.sw then .ok (.sw (rtField w) (immField w) (rsField w))
  else .error (.unsupportedOpcode opcode)

/-! ## Encode (R85, R94) -/

/-- A register index as a 5-bit field. -/
def regBits (r : Reg) : BitVec 5 := BitVec.ofFin r

/-- R-type: the opcode of R-type words, rs, rt, rd, shamt, funct, from bit 31 down (R82). -/
def encodeRType (m : OpcodeMap) (rs rt rd : Reg) (shamt : Nat) (funct : BitVec 6) : Word :=
  m.special ++ regBits rs ++ regBits rt ++ regBits rd ++ BitVec.ofNat 5 shamt ++ funct

/-- I-type: opcode, rs, rt, the low 16 bits of the number (R83, R88). -/
def encodeIType (opcode : BitVec 6) (rs rt : Reg) (imm : Int) : Word :=
  opcode ++ regBits rs ++ regBits rt ++ BitVec.ofInt 16 imm

/-- J-type: opcode, 26-bit field (R84). -/
def encodeJType (opcode : BitVec 6) (target : Nat) : Word :=
  opcode ++ BitVec.ofNat 26 target

/-- The word of an instruction; fields it does not use are zero, as the assembler emits them (R94). -/
def encode (m : OpcodeMap) : Instr → Word
  | .sll rd rt shamt => encodeRType m 0 rt rd shamt m.sll
  | .srl rd rt shamt => encodeRType m 0 rt rd shamt m.srl
  | .jr rs => encodeRType m rs 0 0 0 m.jr
  | .add rd rs rt => encodeRType m rs rt rd 0 m.add
  | .sub rd rs rt => encodeRType m rs rt rd 0 m.sub
  | .and rd rs rt => encodeRType m rs rt rd 0 m.and
  | .or rd rs rt => encodeRType m rs rt rd 0 m.or
  | .slt rd rs rt => encodeRType m rs rt rd 0 m.slt
  | .j target => encodeJType m.j target
  | .jal target => encodeJType m.jal target
  | .beq rs rt disp => encodeIType m.beq rs rt disp
  | .bne rs rt disp => encodeIType m.bne rs rt disp
  | .addi rt rs imm => encodeIType m.addi rs rt imm
  | .lw rt offset rs => encodeIType m.lw rs rt offset
  | .sw rt offset rs => encodeIType m.sw rs rt offset

/-! ## The match/mask table (R93) and the unused fields (R94), as data -/

/-- A row of R93: a word `w` is the instruction when `w & mask = pattern`; `unused` marks the bits the row
shows as `x`. -/
structure Pattern where
  mnemonic : String
  mask : Word
  pattern : Word
  unused : Word
  deriving DecidableEq, Repr

/-- An R-type row: opcode and funct are fixed. -/
def rtypeRow (m : OpcodeMap) (mnemonic : String) (funct : BitVec 6) (unused : Word) : Pattern where
  mnemonic := mnemonic
  mask := 0xFC00003F#32
  pattern := m.special ++ 0#20 ++ funct
  unused := unused

/-- A row of the other formats: the opcode is fixed and every field is used. -/
def opcodeRow (mnemonic : String) (opcode : BitVec 6) : Pattern where
  mnemonic := mnemonic
  mask := 0xFC000000#32
  pattern := opcode ++ 0#26
  unused := 0#32

/-- The fifteen rows of R93, in its order, from the opcode map. -/
def patternTable (m : OpcodeMap) : List Pattern := [
  rtypeRow m "sll" m.sll 0x03E00000#32,
  rtypeRow m "srl" m.srl 0x03E00000#32,
  rtypeRow m "jr"  m.jr  0x001FFFC0#32,
  rtypeRow m "add" m.add 0x000007C0#32,
  rtypeRow m "sub" m.sub 0x000007C0#32,
  rtypeRow m "and" m.and 0x000007C0#32,
  rtypeRow m "or"  m.or  0x000007C0#32,
  rtypeRow m "slt" m.slt 0x000007C0#32,
  opcodeRow "j"    m.j,
  opcodeRow "jal"  m.jal,
  opcodeRow "beq"  m.beq,
  opcodeRow "bne"  m.bne,
  opcodeRow "addi" m.addi,
  opcodeRow "lw"   m.lw,
  opcodeRow "sw"   m.sw]

/-- A word matches a row of R93. -/
def Pattern.matches (p : Pattern) (w : Word) : Bool := w &&& p.mask == p.pattern

/-! ## The binary-string form of a word (R81) -/

/-- 32 characters `0` or `1`, the first is bit 31 and the last is bit 0 (R81). -/
def toBinaryString (w : Word) : List Char :=
  (List.range 32).map fun i => if w.getLsbD (31 - i) then '1' else '0'

/-- The value of one character of the string form. -/
def bitOfChar (c : Char) : Option Bool :=
  if c = '0' then some false else if c = '1' then some true else none

/-- Reads a list of bits, most significant first, after the value `acc`. -/
def readBits (acc : Nat) : List Char → Option Nat
  | [] => some acc
  | c :: cs =>
    match bitOfChar c with
    | some b => readBits (2 * acc + b.toNat) cs
    | none => none

/-- The word of a string of exactly 32 characters `0` or `1`; none for any other string (R81). -/
def ofBinaryString (cs : List Char) : Option Word :=
  if cs.length = 32 then (readBits 0 cs).map (BitVec.ofNat 32) else none

/-! ## The host's view of the decoder -/

/-- What the decoder reads from an instruction whose low `nbits` bits are those of `w`, every bit above them
zero. An instruction is one word (R80), so the numbering of the table's bits is that of the word (R9); the numerals of the
table are those of R92. -/
def decodeTableWord (nbits w : Nat) : Option Instr :=
  match decode defaultOpcodes (BitVec.ofNat 32 (w % 2 ^ nbits)) with
  | .ok i => some i
  | .error _ => none

end Sys2Proof
end

