-- ==== Sys2Proof/Machine/State.lean ====
section
/-! DEFINITION. The machine's state (10_state.md), the reasons a step can stop, and the state after reset. -/

namespace Sys2Proof.Machine

/-- The data memory: (address, byte) cells. Canonical form: addresses strictly rising, no cell that holds the
value an unlisted address reads as (`Memory.wf` in Ops.lean). -/
abbrev Memory := List Host.Cell

/-- The state of the CPU (00_scope.md R15). `instructionCount` (R31) is the length of `imem`; the run state (R33)
is a predicate; decoded fields and the "explicitly set" mark are local to a step (R36). -/
structure State where
  /-- The parameters of the machine and its opcode map (R7, R92). Configuration, not state of the hardware: every event keeps it (log 2). -/
  config : Config
  /-- The 32 general registers (R20). Index 0 is read and written through `readReg`, `writeReg` (R23, R24). -/
  regs : Vector Word 32
  /-- The program counter: the address of the next instruction to fetch (R27). -/
  pc : Word
  /-- The instruction memory: word `k` of the loaded program, at address `BASE_INSTR + 4*k` (R30). -/
  imem : List Word
  /-- The data memory (R32); slot `k`, at address `A = BASE_DATA - 4*k`, is the cells `A-3 .. A` (log 1). -/
  dmem : Memory
  deriving DecidableEq, Repr

/-- The runtime errors (60_exceptions.md R242), each with its `info`. They are the hardware's own outcomes: a step
that ends in one changes no state (R241). All are safe: the model stops where the hardware reports an error and
does not move (R243). -/
inductive Fault where
  /-- Code 1. Raised by any step: the PC is below `END` and not a multiple of 4. Safe. -/
  | fetchMisaligned (pc : Word)
  /-- Code 2. Raised by any step: the PC is aligned and below `BASE_INSTR`. Safe. -/
  | fetchOutOfRange (pc : Word)
  /-- Code 3. Raised by any step: the fetched word matches none of the fifteen patterns. Safe. -/
  | unsupportedInstruction (word : Word)
  /-- Code 4. Raised by `lw`, `sw`: `(BASE_DATA - ea) mod 4 ≠ 0`. Safe. -/
  | dataMisaligned (ea : Word)
  /-- Code 5. Raised by `lw`, `sw`: aligned, and the slot index is `DMEM_WORDS` or more. Safe. -/
  | dataOutOfRange (ea : Word)
  /-- Code 6. Raised by no instruction (R245), only by the register file's contract in HostPort.lean. Safe. -/
  | regIndexOutOfRange (index : Int)
  /-- Only under `ZERO_WRITE = fail`: raised by an instruction whose destination is register 0, and by the register file's
  contract (U1; DESIGN CHOICE: the name, the code 7 and that it carries no `info` are the model's, log 4). Safe. -/
  | zeroRegisterWrite
  deriving DecidableEq, Repr

/-- Operations that are rejected and change nothing. -/
inductive Refusal where
  /-- Raised by an arm of `exec` whose instruction has no meaning yet; no arm is in this case. Safe. -/
  | notModelled (mnemonic : String)
  /-- Raised by `load` for a program longer than `IMEM_WORDS` (R262), never by a step. Safe. -/
  | programTooLong (length : Nat)
  deriving DecidableEq, Repr

/-- The state after construction with no program (R41, R260): every register 0 but `$sp = BASE_DATA`, the PC at
`BASE_INSTR`, data memory all zero, `instructionCount = 0`. -/
def State.initial (c : Config) : State where
  config := c
  regs := (Vector.replicate 32 0#32).set 29 c.baseData
  pc := c.baseInstr
  imem := []
  dmem := []

/-- The state after reset of the hardware of the value column of R7 and the table of R92. -/
def State.reset : State := State.initial defaultConfig

end Sys2Proof.Machine
end

