-- ==== Sys2Proof/Machine/Ops.lean ====
section
/-! DEFINITION. The named operations over registers, the two memories and the PC (10_state.md, 20_memory.md), and the
one way a step ends in an error. -/

namespace Sys2Proof.Machine

/-! ## Registers (R22, R23, R24) -/

/-- `x[i]`: register 0 always reads as 0 (R22, R23). -/
def readReg (i : Reg) (s : State) : Word := if i = 0 then 0#32 else s.regs[i]

/-- The error a write to register `i` raises: one at register 0 under `ZERO_WRITE = fail` (R24, U1; log 4). -/
def writeError (i : Reg) (s : State) : Option Fault :=
  if i = 0 ∧ s.config.zeroWrite = .fail then some .zeroRegisterWrite else none

/-- `x[i] <- v` where it raises no error: a write to register 0 is discarded (R24). -/
def writeReg (i : Reg) (v : Word) (s : State) : State :=
  if i = 0 then s else { s with regs := s.regs.set i v }

/-! ## The PC (R115, R116, R118) -/

/-- Phase 5: the explicit target if the instruction set one, else `pc + 4`, modulo 2^32. `some` is the "explicitly
set" mark of R116. -/
def advancePc (explicit : Option Word) (s : State) : State :=
  { s with pc := explicit.getD (s.pc + 4#32) }

/-! ## Cells of the data memory -/

/-- What an unlisted address reads as: data memory is all zero after construction, reset and load (R32, R41). -/
def unlistedByte : Byte := 0#8

/-- The canonical form: addresses strictly rising, and no cell equal to what an unlisted address reads as. -/
abbrev Memory.wf (m : Memory) : Prop :=
  m.Pairwise (fun c d => c.1 < d.1) ∧ ∀ c ∈ m, c.2 ≠ unlistedByte

/-- Reads one cell. -/
def Memory.readByte (m : Memory) (a : Nat) : Byte :=
  match m with
  | [] => unlistedByte
  | c :: rest => if c.1 = a then c.2 else Memory.readByte rest a

/-- Puts a cell before the first one with a larger address. -/
def Memory.insertCell (c : Host.Cell) : Memory → Memory
  | [] => [c]
  | d :: rest => if c.1 < d.1 then c :: d :: rest else d :: Memory.insertCell c rest

/-- Writes one cell and keeps the canonical form. -/
def Memory.writeByte (m : Memory) (a : Nat) (b : Byte) : Memory :=
  let others := m.filter fun c => c.1 != a
  if b = unlistedByte then others else Memory.insertCell (a, b) others

/-- Reads the 32-bit word in the cells `lo .. lo+3`, most significant byte in cell `lo` (log 1). -/
def Memory.readWord (m : Memory) (lo : Nat) : Word :=
  m.readByte lo ++ m.readByte (lo + 1) ++ m.readByte (lo + 2) ++ m.readByte (lo + 3)

/-- Replaces the 32-bit word in the cells `lo .. lo+3`. -/
def Memory.writeWord (m : Memory) (lo : Nat) (v : Word) : Memory :=
  (((m.writeByte lo (v.extractLsb' 24 8)).writeByte (lo + 1) (v.extractLsb' 16 8)).writeByte
    (lo + 2) (v.extractLsb' 8 8)).writeByte (lo + 3) (v.extractLsb' 0 8)

/-! ## Data access (R54 to R58) -/

/-- `d = (BASE_DATA - u(addr)) mod 2^32` (R55), in exact numbers. -/
def dataDistance (c : Config) (addr : Word) : Nat :=
  if addr.toNat ≤ c.baseData.toNat then c.baseData.toNat - addr.toNat
  else 2 ^ 32 - addr.toNat + c.baseData.toNat

/-- The lowest of the four cells of the data word at address `addr`: a word lies in `addr-3 .. addr` (log 1). -/
def wordCells (addr : Word) : Nat := addr.toNat - 3

/-- The tests of a data access, alignment before range (R56, R55, D12): the error it raises, if any. -/
def dataError (c : Config) (addr : Word) : Option Fault :=
  if dataDistance c addr % 4 ≠ 0 then some (.dataMisaligned addr)
  else if dataDistance c addr / 4 ≥ c.dmemWords then some (.dataOutOfRange addr)
  else none

/-- `MemRead(addr, 4)` (R57). -/
def memRead (addr : Word) (s : State) : Except Fault Word :=
  match dataError s.config addr with
  | some f => .error f
  | none => .ok (s.dmem.readWord (wordCells addr))

/-- `MemWrite(addr, 4, v)` (R58): all 32 bits of the slot are replaced, or nothing changes. -/
def memWrite (addr v : Word) (s : State) : Except Fault State :=
  match dataError s.config addr with
  | some f => .error f
  | none => .ok { s with dmem := s.dmem.writeWord (wordCells addr) v }

/-! ## Instruction memory and run state (R31, R33, R53) -/

/-- Number of words of the loaded program (R31). -/
def State.instructionCount (s : State) : Nat := s.imem.length

/-- `END = BASE_INSTR + 4*instructionCount` (R8), exact. -/
def State.endAddress (s : State) : Nat := s.config.baseInstr.toNat + 4 * s.instructionCount

/-- The run state Finished: the PC, read unsigned, is at or above `END` (R33, R111; log 6). -/
def State.finished (s : State) : Bool := decide (s.endAddress ≤ s.pc.toNat)

/-- `IFetch(addr)` (R53): alignment before range. The last case is unreachable from a step (R51). -/
def iFetch (addr : Word) (s : State) : Except Fault Word :=
  if addr.toNat % 4 ≠ 0 then .error (.fetchMisaligned addr)
  else if addr.toNat < s.config.baseInstr.toNat then .error (.fetchOutOfRange addr)
  else
    match s.imem[(addr.toNat - s.config.baseInstr.toNat) / 4]? with
    | some w => .ok w
    | none => .error (.fetchOutOfRange addr)

/-! ## How a step ends -/

/-- `raise E(info)`: the step ends with the error and every write it had prepared is discarded (R241). This is all
the hardware has in place of taking an exception: there is no trap entry, no vector and no return (R249, R251). -/
def raise (f : Fault) : Host.Outcome State Fault Refusal := .fault f

/-- The step ends `Ok` with the writes already in `s` and the PC of phase 5 (R115, R117). -/
def commit (explicit : Option Word) (s : State) : Host.Outcome State Fault Refusal :=
  .next (advancePc explicit s)

/-- The step ends `Ok` with one register written, or in the error of that write. -/
def commitReg (i : Reg) (v : Word) (explicit : Option Word) (s : State) : Host.Outcome State Fault Refusal :=
  match writeError i s with
  | none => commit explicit (writeReg i v s)
  | some f => raise f

/-! ## Placing one instruction where the next step fetches (for `State.withFetchWord`; log 8) -/

/-- The slot the PC names, if it is the address of a slot within the capacity; else slot 0. -/
def fetchSlot (s : State) : Nat :=
  let k := (s.pc.toNat - s.config.baseInstr.toNat) / 4
  if s.pc.toNat % 4 = 0 ∧ s.config.baseInstr.toNat ≤ s.pc.toNat ∧ k < s.config.imemWords then k else 0

/-- Stores `w` in slot `k` of a program, with zero words before it where the program is shorter. -/
def placeWord (imem : List Word) (k : Nat) (w : Word) : List Word :=
  (imem ++ List.replicate (k + 1 - imem.length) 0#32).set k w

/-- `s` with `w` in the slot of the next fetch, and the PC on that slot. -/
def placeAtFetch (s : State) (w : Word) : State :=
  { s with
    imem := placeWord s.imem (fetchSlot s) w
    pc := s.config.baseInstr + BitVec.ofNat 32 (4 * fetchSlot s) }

end Sys2Proof.Machine
end

