-- ==== Sys2Proof/Machine/Flags.lean ====
section
/-! DEFINITION. Conditions. The hardware has no flags (10_state.md R34): `slt` writes its 0 or 1 to a general register
and `beq`, `bne` compare two registers directly, so a condition is a Bool local to the step. -/

namespace Sys2Proof.Machine

/-- `s(a) < s(b)`, the signed comparison of `slt` (R10, R137). -/
def signedLess (a b : Word) : Bool := decide (a.toInt < b.toInt)

/-- All 32 bits equal, the comparison of `beq` and `bne` (R173, R174). -/
def wordsEqual (a b : Word) : Bool := a == b

/-- The word a condition writes: 1 or 0 (R137). -/
def conditionWord (c : Bool) : Word := if c then 1#32 else 0#32

end Sys2Proof.Machine
end

