-- ==== Sys2Proof/Machine/Operands.lean ====
section
/-! DEFINITION. The operand forms: immediates, the one addressing mode, branch and jump targets. -/

namespace Sys2Proof.Machine

/-- `sext_32` of a 16-bit field (R87). -/
def sext32 (v : BitVec 16) : Word := v.signExtend 32

/-- An immediate, offset or displacement as a 32-bit word: the number modulo 2^32. For the number of a decoded
16-bit field this is `sext_32` of the field (R86, R87). -/
def immWord (n : Int) : Word := BitVec.ofInt 32 n

/-- `ea = (x[rs] - sext_32(imm)) mod 2^32`: the offset is subtracted (R152). -/
def effectiveAddress (offset : Int) (rs : Reg) (s : State) : Word := readReg rs s - immWord offset

/-- The link value and fall-through address `pc + 4` (R176, R28). -/
def nextPc (s : State) : Word := s.pc + 4#32

/-- `btarget = (pc + 4 + sext_32(imm)*4) mod 2^32` (R172). -/
def branchTarget (disp : Int) (s : State) : Word := nextPc s + immWord disp * 4#32

/-- `(pc & 0xF0000000) | (target << 2)`, the upper bits from the jump's own address (R175). -/
def jumpTarget (target : Nat) (s : State) : Word :=
  (s.pc &&& 0xF0000000#32) ||| (BitVec.ofNat 32 target <<< 2)

end Sys2Proof.Machine
end

