-- ==== Sys2Proof/Machine/Alu.lean ====
section
/-! DEFINITION. `sll srl add sub and or slt` (41_rtype_alu.md). -/

namespace Sys2Proof.Machine

/-- The template of the family (R130): write the result to `x[i]`, then `pc + 4`. -/
def writeResult (i : Reg) (v : Word) (s : State) : Host.Outcome State Fault Refusal :=
  commitReg i v none s

/-- `x[rd] <- (x[rt] << shamt) mod 2^32` (R138). -/
def execSll (rd rt : Reg) (shamt : Nat) (s : State) : Host.Outcome State Fault Refusal :=
  writeResult rd (readReg rt s <<< shamt) s

/-- `x[rd] <- u(x[rt]) >>u shamt`, zeros enter (R139). -/
def execSrl (rd rt : Reg) (shamt : Nat) (s : State) : Host.Outcome State Fault Refusal :=
  writeResult rd (readReg rt s >>> shamt) s

/-- `x[rd] <- (x[rs] + x[rt]) mod 2^32`, no overflow trap (R133, R131). -/
def execAdd (rd rs rt : Reg) (s : State) : Host.Outcome State Fault Refusal :=
  writeResult rd (readReg rs s + readReg rt s) s

/-- `x[rd] <- (x[rs] - x[rt]) mod 2^32`, no overflow trap (R134, R131). -/
def execSub (rd rs rt : Reg) (s : State) : Host.Outcome State Fault Refusal :=
  writeResult rd (readReg rs s - readReg rt s) s

/-- `x[rd] <- x[rs] & x[rt]` (R135). -/
def execAnd (rd rs rt : Reg) (s : State) : Host.Outcome State Fault Refusal :=
  writeResult rd (readReg rs s &&& readReg rt s) s

/-- `x[rd] <- x[rs] | x[rt]` (R136). -/
def execOr (rd rs rt : Reg) (s : State) : Host.Outcome State Fault Refusal :=
  writeResult rd (readReg rs s ||| readReg rt s) s

/-- `x[rd] <- 1 if s(x[rs]) < s(x[rt]) else 0` (R137). -/
def execSlt (rd rs rt : Reg) (s : State) : Host.Outcome State Fault Refusal :=
  writeResult rd (conditionWord (signedLess (readReg rs s) (readReg rt s))) s

end Sys2Proof.Machine
end

