-- ==== Sys2Proof/Machine/Control.lean ====
section
/-! DEFINITION. `jr j jal beq bne` (43_control_transfer.md): no delay slots (R170), targets not checked when written
(R171). -/

namespace Sys2Proof.Machine

/-- `pc <- x[rs]`, all 32 bits, unchecked (R177). -/
def execJr (rs : Reg) (s : State) : Host.Outcome State Fault Refusal :=
  commit (some (readReg rs s)) s

/-- `pc <- (pc & 0xF0000000) | (target << 2)` (R175). -/
def execJ (target : Nat) (s : State) : Host.Outcome State Fault Refusal :=
  commit (some (jumpTarget target s)) s

/-- `x[31] <- pc + 4`, then the PC update of `j`, both from the old PC (R176). -/
def execJal (target : Nat) (s : State) : Host.Outcome State Fault Refusal :=
  commitReg 31 (nextPc s) (some (jumpTarget target s)) s

/-- A conditional branch: the "explicitly set" mark only when taken (R116). -/
def branchIf (taken : Bool) (disp : Int) (s : State) : Host.Outcome State Fault Refusal :=
  commit (if taken then some (branchTarget disp s) else none) s

/-- Taken when `x[rs] = x[rt]` (R173). -/
def execBeq (rs rt : Reg) (disp : Int) (s : State) : Host.Outcome State Fault Refusal :=
  branchIf (wordsEqual (readReg rs s) (readReg rt s)) disp s

/-- Taken when `x[rs] ≠ x[rt]` (R174). -/
def execBne (rs rt : Reg) (disp : Int) (s : State) : Host.Outcome State Fault Refusal :=
  branchIf (!wordsEqual (readReg rs s) (readReg rt s)) disp s

end Sys2Proof.Machine
end

