-- ==== Sys2Proof/Machine/ImmMem.lean ====
section
/-! DEFINITION. `addi lw sw` (42_immediate_memory.md). -/

namespace Sys2Proof.Machine

/-- `x[rt] <- (x[rs] + sext_32(imm)) mod 2^32`, no overflow trap (R151, R131). -/
def execAddi (rt rs : Reg) (imm : Int) (s : State) : Host.Outcome State Fault Refusal :=
  commitReg rt (readReg rs s + immWord imm) none s

/-- `x[rt] <- MemRead(x[rs] - sext_32(imm), 4)`; the address is tested even when `rt = 0`, and before the
register write (R153; log 4). -/
def execLw (rt : Reg) (offset : Int) (rs : Reg) (s : State) : Host.Outcome State Fault Refusal :=
  match memRead (effectiveAddress offset rs s) s with
  | .ok v => commitReg rt v none s
  | .error f => raise f

/-- `MemWrite(x[rs] - sext_32(imm), 4, x[rt])`; no register is written (R154). -/
def execSw (rt : Reg) (offset : Int) (rs : Reg) (s : State) : Host.Outcome State Fault Refusal :=
  match memWrite (effectiveAddress offset rs s) (readReg rt s) s with
  | .ok t => commit none t
  | .error f => raise f

end Sys2Proof.Machine
end

