-- ==== Sys2Proof/Machine/Cycle.lean ====
section
/-! DEFINITION. The phases of a step (40_execution_cycle.md R110 to R118). -/

namespace Sys2Proof.Machine

/-- Phases 3 to 5 on a fetched word: decode, execute, PC advance (R113, R114, R115). A word that is none of the
fifteen instructions is an error and changes nothing (R95, R246). -/
def executeWord (w : Word) (s : State) : Host.Outcome State Fault Refusal :=
  match decode s.config.opcodes w with
  | .ok i => exec i s
  | .error _ => raise (.unsupportedInstruction w)

/-- The whole step (R118). A step of a finished machine changes nothing: it answers the same state, which is the
outcome `Finished` (R111; log 5). -/
def runCycle (s : State) : Host.Outcome State Fault Refusal :=
  if s.finished then .next s
  else
    match iFetch s.pc s with
    | .error f => raise f
    | .ok w => executeWord w s

end Sys2Proof.Machine
end

