-- ==== Sys2Proof/Machine/Step.lean ====
section
/-! DEFINITION. One step, and how the host puts one instruction under the PC. -/

namespace Sys2Proof.Machine

/-- The single transition of the CPU (R110, R118). -/
def step (s : State) : Host.Outcome State Fault Refusal := runCycle s

/-- `s` with the word whose low `nbits` bits are those of `w` in the slot of the next fetch (log 8). From reset this is
`load` of the one-word program (R262). -/
def State.withFetchWord (s : State) (nbits w : Nat) : State :=
  placeAtFetch s (BitVec.ofNat 32 (w % 2 ^ nbits))

end Sys2Proof.Machine
end

