-- ==== Sys2Proof/Machine/RegisterNames.lean ====
section
/-! DEFINITION. The 32 canonical register names (10_state.md R21; names of indices 1 to 27 are the spec's general
knowledge, log 11). -/

namespace Sys2Proof.Machine

/-- The names in index order. No register has a second name (R21). -/
def registerNames : Vector String 32 := #v[
  "$zero", "$at", "$v0", "$v1", "$a0", "$a1", "$a2", "$a3",
  "$t0", "$t1", "$t2", "$t3", "$t4", "$t5", "$t6", "$t7",
  "$s0", "$s1", "$s2", "$s3", "$s4", "$s5", "$s6", "$s7",
  "$t8", "$t9", "$k0", "$k1", "$gp", "$sp", "$fp", "$ra"]

/-- The name of a register. -/
def registerName (r : Reg) : String := registerNames[r]

/-- The register of a name, matched exactly and case-sensitively; none for any other text (R201). -/
def registerOfName (token : List Char) : Option Reg :=
  (List.finRange 32).find? fun r => (registerName r).toList == token

end Sys2Proof.Machine
end

