-- ==== Sys2Proof/Machine/Assembler.lean ====
section
/-! DEFINITION. The two-pass assembler (44_assembler.md): a pure function from text to words or the first error. Text is a
list of characters; `\n` is the line feed. -/

namespace Sys2Proof.Machine

/-! ## Errors (R230, R231) -/

/-- The error kinds of R231. -/
inductive AsmErrorKind where
  /-- A label name declared twice (R195, R197). -/
  | duplicateLabel
  /-- The first token is none of the fifteen mnemonics (R206). -/
  | unknownMnemonic
  /-- The number of operands differs from what the mnemonic takes (R205). -/
  | operandCount
  /-- A register position holds no canonical register name (R201). -/
  | badRegister
  /-- An integer position holds no signed decimal integer (R202). -/
  | badNumber
  /-- An integer outside the range of its field (R208, R210, R211, R212). -/
  | outOfRange
  /-- The memory operand has not the shape `offset(register)` (R204). -/
  | badMemOperand
  /-- A label position holds a name that is not in the label map (R203). -/
  | unresolvedLabel
  deriving DecidableEq, Repr

/-- `AssemblyError(kind, lineNumber, detail)` (R230); `detail` is the offending token (log 12). -/
structure AsmError where
  kind : AsmErrorKind
  line : Nat
  detail : List Char
  deriving DecidableEq, Repr

/-- An error of one line, before its line number is known. -/
abbrev LineResult (α : Type) := Except (AsmErrorKind × List Char) α

/-! ## Lines (R191 to R194) -/

/-- Splits a list at every element that satisfies `p`; the separators are dropped, empty pieces are kept. -/
def splitWhere (p : Char → Bool) : List Char → List (List Char)
  | [] => [[]]
  | c :: cs =>
    if p c then [] :: splitWhere p cs
    else
      match splitWhere p cs with
      | [] => [[c]]
      | piece :: pieces => (c :: piece) :: pieces

/-- White space: space, horizontal tab, carriage return (R192). -/
def isBlank (c : Char) : Bool := c == ' ' || c == '\t' || c == '\r'

/-- Removes leading and trailing white space. -/
def trim (cs : List Char) : List Char :=
  ((cs.dropWhile isBlank).reverse.dropWhile isBlank).reverse

/-- Removes the comment and the surrounding white space of a line (R192). -/
def cleanLine (line : List Char) : List Char := trim (line.takeWhile (· != '#'))

/-- The cleaned lines that are not empty, each with its line number counted from 1 (R191, R192). -/
def cleanedLines (text : List Char) : List (Nat × List Char) :=
  (((splitWhere (· == '\n') text).zipIdx 1).map fun (line, n) => (n, cleanLine line)).filter
    fun l => !l.2.isEmpty

/-- The first character of an identifier: an ASCII letter or underscore (R194). -/
def isIdentStart (c : Char) : Bool := c.isAlpha || c == '_'

/-- A further character of an identifier: an ASCII letter, digit or underscore (R194). -/
def isIdentRest (c : Char) : Bool := c.isAlphanum || c == '_'

/-- An identifier, `[A-Za-z_][A-Za-z0-9_]*` (R194). -/
def isIdent : List Char → Bool
  | [] => false
  | c :: cs => isIdentStart c && cs.all isIdentRest

/-- The label a cleaned line declares, if it is a label line: an identifier, white space if any, `:`, nothing else
(R193). -/
def labelOfLine (line : List Char) : Option (List Char) :=
  match line.reverse with
  | ':' :: front =>
    let name := (front.dropWhile isBlank).reverse
    if isIdent name then some name else none
  | _ => none

/-- Whether a cleaned line is an instruction line: every one that is not a label line (R193). -/
def isInstructionLine (line : Nat × List Char) : Bool := (labelOfLine line.2).isNone

/-! ## Pass 1: the label map (R195 to R197) -/

/-- Label names with their addresses, latest first. -/
abbrev LabelMap := List (List Char × Nat)

/-- The address of a label (R203). -/
def LabelMap.address (labels : LabelMap) (name : List Char) : Option Nat := labels.lookup name

/-- Address of instruction index `k`: `BASE_INSTR + 4*k` (R195, R198), exact. -/
def instructionAddress (c : Config) (k : Nat) : Nat := c.baseInstr.toNat + 4 * k

/-- Pass 1 over the remaining cleaned lines, with the counter and the map so far (R195). -/
def buildLabels (c : Config) : List (Nat × List Char) → Nat → LabelMap → Except AsmError LabelMap
  | [], _, labels => .ok labels
  | (n, line) :: rest, counter, labels =>
    match labelOfLine line with
    | some name =>
      if (labels.address name).isSome then .error ⟨.duplicateLabel, n, name⟩
      else buildLabels c rest counter ((name, instructionAddress c counter) :: labels)
    | none => buildLabels c rest (counter + 1) labels

/-! ## Tokens and operands (R199 to R204) -/

/-- The non-empty pieces between maximal runs of white space and commas (R199). -/
def tokensOf (line : List Char) : List (List Char) :=
  (splitWhere (fun c => isBlank c || c == ',') line).filter fun t => !t.isEmpty

/-- The number a list of decimal digits stands for, after the value `acc`. -/
def digitsValue (acc : Nat) (cs : List Char) : Nat :=
  cs.foldl (fun a c => 10 * a + (c.toNat - '0'.toNat)) acc

/-- One or more decimal digits, and nothing else. -/
def readDigits (cs : List Char) : Option Nat :=
  if !cs.isEmpty && cs.all Char.isDigit then some (digitsValue 0 cs) else none

/-- A signed decimal integer: an optional single sign, then digits; exact (R202). -/
def readInteger : List Char → Option Int
  | '+' :: cs => (readDigits cs).map Int.ofNat
  | '-' :: cs => (readDigits cs).map fun (n : Nat) => -(Int.ofNat n)
  | cs => (readDigits cs).map Int.ofNat

/-- A register operand (R201). -/
def regOperand (token : List Char) : LineResult Reg :=
  match registerOfName token with
  | some r => .ok r
  | none => .error (.badRegister, token)

/-- An integer operand, any size (R202). -/
def intOperand (token : List Char) : LineResult Int :=
  match readInteger token with
  | some n => .ok n
  | none => .error (.badNumber, token)

/-- A label operand, looked up as it stands (R203). -/
def labelOperand (labels : LabelMap) (token : List Char) : LineResult Nat :=
  match labels.address token with
  | some a => .ok a
  | none => .error (.unresolvedLabel, token)

/-- The two texts of a token of the shape `text(text)`, split at its first `(` and its last `)` (R204, log 14). -/
def splitMemOperand (token : List Char) : Option (List Char × List Char) :=
  let offset := token.takeWhile (· != '(')
  match (token.dropWhile (· != '(')).drop 1 |>.reverse with
  | ')' :: inner =>
    if offset.isEmpty || inner.isEmpty then none else some (offset, inner.reverse)
  | _ => none

/-- A memory operand `offset(register)`: its shape, then the integer, then the register (R204). -/
def memOperand (token : List Char) : LineResult (Int × Reg) :=
  match splitMemOperand token with
  | none => .error (.badMemOperand, token)
  | some (offset, register) => do
    let n ← intOperand offset
    let r ← regOperand register
    return (n, r)

/-- A range test (R231 `OutOfRange`). -/
def requireFits (fits : Bool) (token : List Char) : LineResult Unit :=
  if fits then .ok () else .error (.outOfRange, token)

/-! ## One rule per mnemonic form (R207 to R213). Each answers the instruction; the word is its `encode`. -/

/-- `add sub and or slt`: `rd, rs, rt` (R207). -/
def threeRegForm (make : Reg → Reg → Reg → Instr) (mnemonic : List Char) : List (List Char) → LineResult Instr
  | [rd, rs, rt] => do
    let d ← regOperand rd
    let s ← regOperand rs
    let t ← regOperand rt
    return make d s t
  | _ => .error (.operandCount, mnemonic)

/-- `sll srl`: `rd, rt, shamt`, the amount in `[0, 31]` (R208). -/
def shiftForm (make : Reg → Reg → Nat → Instr) (mnemonic : List Char) : List (List Char) → LineResult Instr
  | [rd, rt, shamt] => do
    let d ← regOperand rd
    let t ← regOperand rt
    let n ← intOperand shamt
    requireFits (shamtFits n) shamt
    return make d t n.toNat
  | _ => .error (.operandCount, mnemonic)

/-- `jr`: `rs` (R209). -/
def oneRegForm (make : Reg → Instr) (mnemonic : List Char) : List (List Char) → LineResult Instr
  | [rs] => do
    let s ← regOperand rs
    return make s
  | _ => .error (.operandCount, mnemonic)

/-- `addi`: `rt, rs, immediate`, the immediate in `[-32768, 32767]` (R210). -/
def immForm (make : Reg → Reg → Int → Instr) (mnemonic : List Char) : List (List Char) → LineResult Instr
  | [rt, rs, imm] => do
    let t ← regOperand rt
    let s ← regOperand rs
    let n ← intOperand imm
    requireFits (imm16Fits n) imm
    return make t s n
  | _ => .error (.operandCount, mnemonic)

/-- `lw sw`: `rt, offset(rs)`, the offset in `[-32768, 32767]` (R211). -/
def memForm (make : Reg → Int → Reg → Instr) (mnemonic : List Char) : List (List Char) → LineResult Instr
  | [rt, mem] => do
    let t ← regOperand rt
    let (n, s) ← memOperand mem
    requireFits (imm16Fits n) mem
    return make t n s
  | _ => .error (.operandCount, mnemonic)

/-- The displacement of a branch at address `cur` to address `target`, in words (R89, R212). -/
def branchDisplacement (target cur : Nat) : Int := ((target : Int) - ((cur : Int) + 4)) / 4

/-- `beq bne`: `rs, rt, label`, the displacement in `[-32768, 32767]` (R212). -/
def branchForm (make : Reg → Reg → Int → Instr) (cur : Nat) (labels : LabelMap) (mnemonic : List Char) :
    List (List Char) → LineResult Instr
  | [rs, rt, label] => do
    let s ← regOperand rs
    let t ← regOperand rt
    let target ← labelOperand labels label
    let disp := branchDisplacement target cur
    requireFits (imm16Fits disp) label
    return make s t disp
  | _ => .error (.operandCount, mnemonic)

/-- The 26-bit field of a jump to an address: `(address >> 2) & 0x03FFFFFF` (R90, R213). -/
def jumpField (target : Nat) : Nat := target / 4 % 2 ^ 26

/-- `j jal`: one label; the top four address bits are dropped unchecked (R213). -/
def jumpForm (make : Nat → Instr) (labels : LabelMap) (mnemonic : List Char) : List (List Char) → LineResult Instr
  | [label] => do
    let target ← labelOperand labels label
    return make (jumpField target)
  | _ => .error (.operandCount, mnemonic)

/-- Dispatch by mnemonic, exact and case-sensitive (R200, R206). -/
def assembleOperands (cur : Nat) (labels : LabelMap) (m : List Char) (ops : List (List Char)) : LineResult Instr :=
  if m = "add".toList then threeRegForm .add m ops
  else if m = "sub".toList then threeRegForm .sub m ops
  else if m = "and".toList then threeRegForm .and m ops
  else if m = "or".toList then threeRegForm .or m ops
  else if m = "slt".toList then threeRegForm .slt m ops
  else if m = "sll".toList then shiftForm .sll m ops
  else if m = "srl".toList then shiftForm .srl m ops
  else if m = "jr".toList then oneRegForm .jr m ops
  else if m = "addi".toList then immForm .addi m ops
  else if m = "lw".toList then memForm .lw m ops
  else if m = "sw".toList then memForm .sw m ops
  else if m = "beq".toList then branchForm .beq cur labels m ops
  else if m = "bne".toList then branchForm .bne cur labels m ops
  else if m = "j".toList then jumpForm .j labels m ops
  else if m = "jal".toList then jumpForm .jal labels m ops
  else .error (.unknownMnemonic, m)

/-- One instruction line at address `cur` (R198, R199); a line with no token names no mnemonic (log 13). -/
def assembleLine (cur : Nat) (labels : LabelMap) (line : List Char) : LineResult Instr :=
  match tokensOf line with
  | [] => .error (.unknownMnemonic, [])
  | m :: ops => assembleOperands cur labels m ops

/-! ## Pass 2 and the whole assembler (R198, R214, R215) -/

/-- Pass 2 over the remaining cleaned lines, `i` instruction lines done: label lines are skipped, each instruction line
gives one word, the first failing line ends it (R198, R230, R232). -/
def encodeLines (c : Config) (labels : LabelMap) : List (Nat × List Char) → Nat → Except AsmError (List Word)
  | [], _ => .ok []
  | (n, line) :: rest, i =>
    match labelOfLine line with
    | some _ => encodeLines c labels rest i
    | none =>
      match assembleLine (instructionAddress c i) labels line with
      | .error (kind, detail) => .error ⟨kind, n, detail⟩
      | .ok ins =>
        match encodeLines c labels rest (i + 1) with
        | .error e => .error e
        | .ok words => .ok (encode c.opcodes ins :: words)

/-- `assemble(text)` (R190, R215) by the policy `ASM_MODE` (R230). Of the configuration it uses `BASE_INSTR`,
the policy and the opcode map only. -/
def assemble (c : Config) (text : List Char) : Except AsmError (List Word) :=
  match c.asmMode with
  | .strict =>
    match buildLabels c (cleanedLines text) 0 [] with
    | .error e => .error e
    | .ok labels => encodeLines c labels (cleanedLines text) 0

/-- The output as 32-character binary strings (R81, R214). -/
def assembleStrings (c : Config) (text : List Char) : Except AsmError (List (List Char)) :=
  (assemble c text).map (List.map toBinaryString)

end Sys2Proof.Machine
end

