-- ==== Sys2Proof/Machine/HostPort.lean ====
section
/-! DEFINITION. What the host can do to the CPU between steps: the events `step`, `reset`, `load` (10_state.md R38, R39;
70_reset_and_hazards.md), the queries (R40) and the component contracts (R22, R25, R69). -/

namespace Sys2Proof.Machine

/-! ## Reset and load (R261, R262) -/

/-- `reset()`: PC, registers and data memory to their construction values, the program and the configuration untouched (R261). -/
def hostReset (s : State) : State := { State.initial s.config with imem := s.imem }

/-- `load(words)`: refused when the program is too long, else the new program and a full reset (R262). -/
def load (words : List Word) (s : State) : Host.Outcome State Fault Refusal :=
  if programFits s.config words then .next (hostReset { s with imem := words })
  else .refused (.programTooLong words.length)

/-! ## Events and what they report (R39, R110, R16) -/

/-- The outcome the host receives. -/
inductive Report where
  /-- The event took effect; of a step, `Ok`. -/
  | ok
  /-- A step of a finished machine: no change (R111). -/
  | finished
  /-- `Error(kind, info)`: no change (R241). -/
  | error (f : Fault)
  /-- The operation is rejected: no change (R262). -/
  | refused (r : Refusal)
  deriving DecidableEq, Repr

/-- The numeric code of an error (R242; 7 is the model's, log 4). -/
def Fault.code : Fault → Nat
  | .fetchMisaligned _ => 1
  | .fetchOutOfRange _ => 2
  | .unsupportedInstruction _ => 3
  | .dataMisaligned _ => 4
  | .dataOutOfRange _ => 5
  | .regIndexOutOfRange _ => 6
  | .zeroRegisterWrite => 7

/-- What an outcome leaves and reports: anything but a next state leaves the state as it was (R117, R241). -/
def settleOutcome (s : State) : Host.Outcome State Fault Refusal → State × Report
  | .next t => (t, .ok)
  | .fault f => (s, .error f)
  | .refused r => (s, .refused r)

/-- `step()` as the host sees it: `Ok`, `Finished` or `Error` (R110, R118). -/
def hostStep (s : State) : State × Report :=
  if s.finished then (s, .finished) else settleOutcome s (step s)

/-- The mutators of the CPU (R38, R39). -/
inductive Event where
  | step
  | reset
  | load (words : List Word)
  deriving DecidableEq, Repr

/-- One event. Events are totally ordered, each completes before the next (R39). -/
def handle (e : Event) (s : State) : State × Report :=
  match e with
  | .step => hostStep s
  | .reset => (hostReset s, .ok)
  | .load words => settleOutcome s (load words s)

/-- At most `n` host steps, stopping at the first that is not `Ok` (R120). -/
def runFor : Nat → State → State × Report
  | 0, s => (s, .ok)
  | n + 1, s =>
    match hostStep s with
    | (t, .ok) => runFor n t
    | stop => stop

/-- Bring-up: assemble, and load on success; a failed assembly leaves the CPU untouched (R230, R263). -/
def bringUp (text : List Char) (s : State) : Except AsmError (State × Report) :=
  (assemble s.config text).map fun words => handle (.load words) s

/-! ## Queries (R40). They answer data and no state. -/

/-- Address of data slot `k`: `BASE_DATA - 4*k` (R52), the subtraction in exact numbers. -/
def slotAddress (c : Config) (k : Nat) : Word := BitVec.ofNat 32 (c.baseData.toNat - 4 * k)

/-- The word in data slot `k` (R32). -/
def slotWord (k : Nat) (s : State) : Word := s.dmem.readWord (wordCells (slotAddress s.config k))

/-- The 32 pairs (name, value), in index order. -/
def registerSnapshot (s : State) : List (String × Word) :=
  (List.finRange 32).map fun r => (registerName r, readReg r s)

/-- The `DMEM_WORDS` pairs (address, value); every slot is shown (D22). -/
def dataSnapshot (s : State) : List (Word × Word) :=
  (List.range s.config.dmemWords).map fun k => (slotAddress s.config k, slotWord k s)

/-- The `instructionCount` pairs (address, word). -/
def instructionSnapshot (s : State) : List (Word × Word) :=
  s.imem.zipIdx.map fun (w, k) => (s.config.baseInstr + BitVec.ofNat 32 (4 * k), w)

/-- `isFinished()` (R33). -/
def isFinished (s : State) : Bool := s.finished

/-- `size()` of the data memory, in words. -/
def dataSize (s : State) : Nat := s.config.dmemWords

/-- `size()` of the instruction memory, in words. -/
def instructionSize (s : State) : Nat := s.instructionCount

/-! ## Contracts of the components, for a caller outside the CPU (R22, R25, R69, R245) -/

/-- The register of an index, if it lies in `[0, 31]`. -/
def registerOfIndex (index : Int) : Option Reg :=
  if h : 0 ≤ index ∧ index < 32 then some ⟨index.toNat, by omega⟩ else none

/-- `read(index)`: fails out of range (R22, R25). -/
def regFileRead (index : Int) (s : State) : Except Fault Word :=
  match registerOfIndex index with
  | some r => .ok (readReg r s)
  | none => .error (.regIndexOutOfRange index)

/-- `write(index, value)`: fails out of range; at index 0 by the policy `ZERO_WRITE` (R24, R25). -/
def regFileWrite (index : Int) (v : Word) (s : State) : Except Fault State :=
  match registerOfIndex index with
  | some r =>
    match writeError r s with
    | none => .ok (writeReg r v s)
    | some f => .error f
  | none => .error (.regIndexOutOfRange index)

/-- The InstructionMemory's `load(address)` is the fetch primitive (R69, R53). -/
def instructionMemoryLoad (addr : Word) (s : State) : Except Fault Word := iFetch addr s

/-- The DataMemory's `load(address)` is the load primitive (R69, R57). -/
def dataMemoryLoad (addr : Word) (s : State) : Except Fault Word := memRead addr s

/-- The DataMemory's `store(address, value)` is the store primitive (R69, R58). -/
def dataMemoryStore (addr v : Word) (s : State) : Except Fault State := memWrite addr v s

end Sys2Proof.Machine
end

