-- ==== Sys2Proof/Safety.lean ====
section
/-! DEFINITION. What counts as a sound state and a safe run, and the terms the statements use: what an instruction reads
and writes, what a step keeps, the stores of a run, the events of a history. -/

namespace Sys2Proof

/-- The registers an instruction reads (10_state.md R26). -/
def Instr.reads : Instr → List Reg
  | .sll _ rt _ => [rt]
  | .srl _ rt _ => [rt]
  | .jr rs => [rs]
  | .add _ rs rt => [rs, rt]
  | .sub _ rs rt => [rs, rt]
  | .and _ rs rt => [rs, rt]
  | .or _ rs rt => [rs, rt]
  | .slt _ rs rt => [rs, rt]
  | .j _ => []
  | .jal _ => []
  | .beq rs rt _ => [rs, rt]
  | .bne rs rt _ => [rs, rt]
  | .addi _ rs _ => [rs]
  | .lw _ _ rs => [rs]
  | .sw rt _ rs => [rs, rt]

/-- The registers an instruction writes (10_state.md R26). -/
def Instr.writes : Instr → List Reg
  | .sll rd _ _ => [rd]
  | .srl rd _ _ => [rd]
  | .jr _ => []
  | .add rd _ _ => [rd]
  | .sub rd _ _ => [rd]
  | .and rd _ _ => [rd]
  | .or rd _ _ => [rd]
  | .slt rd _ _ => [rd]
  | .j _ => []
  | .jal _ => [31]
  | .beq _ _ _ => []
  | .bne _ _ _ => []
  | .addi rt _ _ => [rt]
  | .lw rt _ _ => [rt]
  | .sw _ _ _ => []

namespace Machine

/-- The invariant of R42 on this model's data: the configuration is legal (R7, R92), the cell of register 0 is zero, the
program fits the instruction memory, and the data memory is canonical and lists cells of existing slots only. -/
structure State.Inv (s : State) : Prop where
  configLegal : s.config.legal = true
  zeroCell : s.regs[(0 : Reg)] = 0#32
  programFits : s.instructionCount ≤ s.config.imemWords
  dataCanonical : s.dmem.wf
  dataInSlots : ∀ c ∈ s.dmem, 2 ^ 32 - 4 * s.config.dmemWords ≤ c.1 ∧ c.1 < 2 ^ 32

/-- The PC is a multiple of 4 (R29). -/
abbrev State.pcAligned (s : State) : Prop := s.pc.toNat % 4 = 0

/-! ## What a step keeps -/

/-- Every register outside `written` reads as before. -/
abbrev registersKept (written : List Reg) (s t : State) : Prop :=
  ∀ r, r ∉ written → readReg r t = readReg r s

/-- Every byte of data memory reads as before. -/
abbrev dataKept (s t : State) : Prop := ∀ a, t.dmem.readByte a = s.dmem.readByte a

/-- The program and the configuration are the ones before. -/
abbrev programKept (s t : State) : Prop := t.imem = s.imem ∧ t.config = s.config

/-- A write to register `i` raises no error (R24, U1). -/
abbrev writeAllowed (i : Reg) (s : State) : Prop := i ≠ 0 ∨ s.config.zeroWrite = .ignore

/-! ## Runs -/

/-- No runtime error within `n` steps (R243: an error is a fault, never final). -/
def safeFor : Nat → State → Bool
  | 0, _ => true
  | n + 1, s =>
    match step s with
    | .next t => safeFor n t
    | .fault _ => false
    | .refused _ => false

/-- The instruction the next step executes, if it gets that far (R111 to R113). -/
def nextInstr (s : State) : Option Instr :=
  if s.finished then none
  else
    match iFetch s.pc s with
    | .error _ => none
    | .ok w =>
      match decode s.config.opcodes w with
      | .ok i => some i
      | .error _ => none

/-- The store the next step makes, if any: address and value. -/
def nextStore (s : State) : Option (Word × Word) :=
  match nextInstr s with
  | some (.sw rt offset rs) =>
    if (dataError s.config (effectiveAddress offset rs s)).isNone then
      some (effectiveAddress offset rs s, readReg rt s)
    else none
  | _ => none

/-- The stores of the next `n` steps, in program order (R64). -/
def storesDuring : Nat → State → List (Word × Word)
  | 0, _ => []
  | n + 1, s =>
    match step s with
    | .next t => (nextStore s).toList ++ storesDuring n t
    | .fault _ => []
    | .refused _ => []

/-- The value of the last store to an address, else a value given (R64). -/
def lastStore (addr : Word) (stores : List (Word × Word)) (otherwise : Word) : Word :=
  ((stores.filter fun st => st.1 == addr).getLast?.map Prod.snd).getD otherwise

/-! ## Histories (R38, R39, R42) -/

/-- The state after a history of events from construction. -/
def afterEvents (c : Config) (es : List Event) : State := es.foldl (fun s e => (handle e s).1) (State.initial c)

/-- The program of the last accepted load of a history; empty if there was none. -/
def lastLoaded (c : Config) (es : List Event) : List Word :=
  es.foldl (fun p e =>
    match e with
    | .load words => if words.length ≤ c.imemWords then words else p
    | .step => p
    | .reset => p) []

end Machine

end Sys2Proof
end

