-- ==== Sys2Proof/Certificates/Slice0/Obligations.lean ====
section
/-! DEFINITION. The statements for the provers. Each docstring names the rule it formalises. -/

open Sys2Proof Sys2Proof.Machine

/-! ## Encoding (30_encoding.md) -/

/-- R82 to R88: no bit of an operand is lost. With every legal opcode map (R92), that of the hardware among them (log 3),
decoding the word of a well-formed instruction gives it back. -/
def Obligations.EncodeThenDecodeGivesInstruction : Prop :=
  ∀ (m : OpcodeMap) (i : Instr), m.legal = true → i.wf = true → decode m (encode m i) = .ok i

/-- R86, R91: whatever word is decoded, with whatever opcode map, every operand lies in its field's range, and re-encoding
the instruction gives the word with the bits its row of R93 shows as unused cleared. -/
def Obligations.DecodedInstructionFitsItsWord : Prop :=
  ∀ (m : OpcodeMap) (w : Word) (i : Instr), decode m w = .ok i →
    i.wf = true ∧ ∃ p ∈ patternTable m, p.mnemonic = i.mnemonic ∧ encode m i = w &&& ~~~p.unused

/-- R93: with every legal opcode map, a word is instruction X when `w & mask = match`, and the fifteen patterns are pairwise
disjoint (an inference the spec marks as its own); and the rows of the hardware's map are those of R93 (the last
column marks its `x`), whose numerals are the spec's decision D1 (log 3). -/
def Obligations.WordIsInstructionWhenMaskedMatch : Prop :=
  (∀ m : OpcodeMap, m.legal = true →
    (∀ (w : Word) (name : String),
      (∃ i, decode m w = .ok i ∧ i.mnemonic = name) ↔
        ∃ p ∈ patternTable m, p.mnemonic = name ∧ w &&& p.mask = p.pattern) ∧
    ∀ (w : Word), ∀ p ∈ patternTable m, ∀ q ∈ patternTable m,
      w &&& p.mask = p.pattern → w &&& q.mask = q.pattern → p = q) ∧
  patternTable defaultOpcodes = [
    ⟨"sll",  0xFC00003F#32, 0x00000000#32, 0x03E00000#32⟩,
    ⟨"srl",  0xFC00003F#32, 0x00000002#32, 0x03E00000#32⟩,
    ⟨"jr",   0xFC00003F#32, 0x00000008#32, 0x001FFFC0#32⟩,
    ⟨"add",  0xFC00003F#32, 0x00000020#32, 0x000007C0#32⟩,
    ⟨"sub",  0xFC00003F#32, 0x00000022#32, 0x000007C0#32⟩,
    ⟨"and",  0xFC00003F#32, 0x00000024#32, 0x000007C0#32⟩,
    ⟨"or",   0xFC00003F#32, 0x00000025#32, 0x000007C0#32⟩,
    ⟨"slt",  0xFC00003F#32, 0x0000002A#32, 0x000007C0#32⟩,
    ⟨"j",    0xFC000000#32, 0x08000000#32, 0x00000000#32⟩,
    ⟨"jal",  0xFC000000#32, 0x0C000000#32, 0x00000000#32⟩,
    ⟨"beq",  0xFC000000#32, 0x10000000#32, 0x00000000#32⟩,
    ⟨"bne",  0xFC000000#32, 0x14000000#32, 0x00000000#32⟩,
    ⟨"addi", 0xFC000000#32, 0x20000000#32, 0x00000000#32⟩,
    ⟨"lw",   0xFC000000#32, 0x8C000000#32, 0x00000000#32⟩,
    ⟨"sw",   0xFC000000#32, 0xAC000000#32, 0x00000000#32⟩]

/-- R94: the encoder emits zero in the fields an instruction does not use, and the CPU, with a legal opcode map, does not
test them (an inference the spec marks as its own, log 10). -/
def Obligations.UnusedFieldsAreIgnored : Prop :=
  (∀ (m : OpcodeMap) (i : Instr), ∀ p ∈ patternTable m, p.mnemonic = i.mnemonic → encode m i &&& p.unused = 0#32) ∧
  ∀ (w : Word) (s : State), s.config.opcodes.legal = true →
    ∀ p ∈ patternTable s.config.opcodes, w &&& p.mask = p.pattern →
      decode s.config.opcodes w = decode s.config.opcodes (w &&& ~~~p.unused) ∧
      executeWord w s = executeWord (w &&& ~~~p.unused) s

/-- R95: the unsupported words of an opcode map, and what a step that fetches one does: it ends in
`UnsupportedInstruction(w)` and changes nothing. The hardware's map has the lists of R95, so 56 opcodes and 56 functs of 64
are unsupported. The numerals are the spec's decision D1 (log 3), the unchanged state its decision D11 (log 18). -/
def Obligations.UnsupportedWordIsAnError : Prop :=
  let opcodes : List (BitVec 6) :=
    [0b000000#6, 0b000010#6, 0b000011#6, 0b000100#6, 0b000101#6, 0b001000#6, 0b100011#6, 0b101011#6]
  let functs : List (BitVec 6) :=
    [0b000000#6, 0b000010#6, 0b001000#6, 0b100000#6, 0b100010#6, 0b100100#6, 0b100101#6, 0b101010#6]
  let unsupported (m : OpcodeMap) (w : Word) : Prop :=
    w.extractLsb' 26 6 ∉ m.opcodes ∨ (w.extractLsb' 26 6 = m.special ∧ w.extractLsb' 0 6 ∉ m.functs)
  (∀ (m : OpcodeMap) (w : Word), (∃ e, decode m w = .error e) ↔ unsupported m w) ∧
  (∀ (s : State) (w : Word), s.finished = false → iFetch s.pc s = .ok w → unsupported s.config.opcodes w →
    step s = .fault (.unsupportedInstruction w) ∧ hostStep s = (s, .error (.unsupportedInstruction w))) ∧
  (defaultOpcodes.special = 0b000000#6 ∧ defaultOpcodes.opcodes = opcodes ∧ defaultOpcodes.functs = functs) ∧
  ((List.finRange 64).filter fun k => BitVec.ofFin (w := 6) k ∉ opcodes).length = 56 ∧
  ((List.finRange 64).filter fun k => BitVec.ofFin (w := 6) k ∉ functs).length = 56

/-- One word of each format written out from its fields (R82, R83, R84, R92): a sanity statement. The numerals are log 3. -/
def Obligations.SampleWordsDecode : Prop :=
  decode defaultOpcodes 0b000000_01000_01001_01010_00000_100000#32 = .ok (.add 10 8 9) ∧
  decode defaultOpcodes 0b000000_00000_01001_01000_11111_000010#32 = .ok (.srl 8 9 31) ∧
  decode defaultOpcodes 0b100011_11101_01000_1111111111111100#32 = .ok (.lw 8 (-4) 29) ∧
  decode defaultOpcodes 0b000011_00000100000000000000000101#32 = .ok (.jal 0x100005)

/-- R96: with the opcode map of R92 the all-zero word is `sll $zero,$zero,0`, and a step that fetches it changes nothing but
the PC (an inference the spec marks as its own, the numerals are log 3); under `ZERO_WRITE = fail` the step is the error of
its register write (U1, log 4). -/
def Obligations.ZeroWordOnlyAdvancesPc : Prop :=
  decode defaultOpcodes 0#32 = .ok (.sll 0 0 0) ∧
  ∀ s : State, s.config.opcodes = defaultOpcodes → s.finished = false → iFetch s.pc s = .ok 0#32 →
    (s.config.zeroWrite = .ignore →
      step s = .next { s with pc := s.pc + 4#32 } ∧ hostStep s = ({ s with pc := s.pc + 4#32 }, .ok)) ∧
    (s.config.zeroWrite = .fail → step s = .fault .zeroRegisterWrite ∧ hostStep s = (s, .error .zeroRegisterWrite))

/-- R81: the 32-character string form, bit 31 first, stands for exactly one word and back. -/
def Obligations.BinaryStringIsTheWord : Prop :=
  (∀ w : Word, (toBinaryString w).length = 32 ∧ ofBinaryString (toBinaryString w) = some w ∧
    ∀ k, k < 32 → (toBinaryString w)[k]? = some (if w.getLsbD (31 - k) then '1' else '0')) ∧
  ∀ (cs : List Char) (w : Word), ofBinaryString cs = some w → toBinaryString w = cs

/-! ## Registers and the host's view of them (10_state.md) -/

/-- R25, R245: the register file's contract fails with the index exactly outside `[0, 31]`; inside, a write fails at index 0
under `ZERO_WRITE = fail` only (R24, log 4), and no step of the CPU ends in the index error (log 19). -/
def Obligations.RegisterIndexErrorOnlyOutsideRange : Prop :=
  (∀ (index : Int) (v : Word) (s : State),
    (0 ≤ index ∧ index ≤ 31 ↔ ∃ x, regFileRead index s = .ok x) ∧
    (0 ≤ index ∧ index ≤ 31 ∧ (index ≠ 0 ∨ s.config.zeroWrite = .ignore) ↔ ∃ t, regFileWrite index v s = .ok t) ∧
    (index < 0 ∨ 31 < index →
      regFileRead index s = .error (.regIndexOutOfRange index) ∧
      regFileWrite index v s = .error (.regIndexOutOfRange index)) ∧
    (index = 0 → s.config.zeroWrite = .fail → regFileWrite index v s = .error .zeroRegisterWrite)) ∧
  ∀ (s : State) (index : Int), step s ≠ .fault (.regIndexOutOfRange index)

/-- R22, R23, R24: a write that is accepted replaces the word at its index and nothing else; at index 0 it is discarded, and
register 0 reads as 0 (that the default accepts it there is the spec's own decision D7, log 4). -/
def Obligations.RegisterWriteReplacesOneWord : Prop :=
  ∀ (i k : Int) (v : Word) (s t : State), regFileWrite i v s = .ok t → 0 ≤ k → k ≤ 31 →
    regFileRead k t = (if k = 0 then .ok 0#32 else if k = i then .ok v else regFileRead k s) ∧
    t.pc = s.pc ∧ t.dmem = s.dmem ∧ programKept s t

/-- R26: an instruction's next state differs from the old one in no register but those R26 lists as written, and keeps the
program and the configuration (R30, log 2). -/
def Obligations.OnlyListedRegistersAreWritten : Prop :=
  ∀ (i : Instr) (s t : State), exec i s = .next t → registersKept i.writes s t ∧ programKept s t

/-- R26: two states of one configuration that agree on the PC, the data memory and the registers R26 lists as read give the
same written registers, PC and data memory, or the same error. -/
def Obligations.OnlyListedRegistersAreRead : Prop :=
  ∀ (i : Instr) (s u : State), s.config = u.config → s.pc = u.pc → dataKept s u →
    (∀ r ∈ i.reads, readReg r s = readReg r u) →
    (∀ t, exec i s = .next t → ∃ t', exec i u = .next t' ∧ t.pc = t'.pc ∧ dataKept t t' ∧
      ∀ r ∈ i.writes, readReg r t = readReg r t') ∧
    ∀ f, exec i s = .fault f → exec i u = .fault f

/-! ## Arithmetic, logic, compare, shift (41_rtype_alu.md) -/

/-- R133: `add`, its encoding, its wrapped sum, its frame; it completes in every state that allows the write, and is the
error of the write in the others. The numeral is log 3, the wrap log 16, register 0 log 4. -/
def Obligations.AddWritesWrappedSum : Prop :=
  ∀ (rd rs rt : Reg) (s : State),
    decode defaultOpcodes (0b000000#6 ++ regBits rs ++ regBits rt ++ regBits rd ++ 0b00000#5 ++ 0b100000#6) =
      .ok (.add rd rs rt) ∧
    (writeAllowed rd s → ∃ t, exec (.add rd rs rt) s = .next t ∧
      (readReg rd t).toNat = (if rd = 0 then 0 else ((readReg rs s).toNat + (readReg rt s).toNat) % 2 ^ 32) ∧
      t.pc = s.pc + 4#32 ∧ registersKept [rd] s t ∧ dataKept s t ∧ programKept s t) ∧
    (¬ writeAllowed rd s → exec (.add rd rs rt) s = .fault .zeroRegisterWrite)

/-- R134: `sub`, its encoding, its wrapped difference, its frame; it completes in every state that allows the write, and is
the error of the write in the others. The numeral is log 3, the wrap log 16, register 0 log 4. -/
def Obligations.SubWritesWrappedDifference : Prop :=
  ∀ (rd rs rt : Reg) (s : State),
    decode defaultOpcodes (0b000000#6 ++ regBits rs ++ regBits rt ++ regBits rd ++ 0b00000#5 ++ 0b100010#6) =
      .ok (.sub rd rs rt) ∧
    (writeAllowed rd s → ∃ t, exec (.sub rd rs rt) s = .next t ∧
      ((readReg rd t).toNat : Int) =
        (if rd = 0 then 0 else ((readReg rs s).toNat - (readReg rt s).toNat : Int) % 2 ^ 32) ∧
      t.pc = s.pc + 4#32 ∧ registersKept [rd] s t ∧ dataKept s t ∧ programKept s t) ∧
    (¬ writeAllowed rd s → exec (.sub rd rs rt) s = .fault .zeroRegisterWrite)

/-- R135: `and`, its encoding, bit by bit, its frame; it completes in every state that allows the write, and is the error of
the write in the others. The numeral is log 3, register 0 log 4. -/
def Obligations.AndWritesBitwiseAnd : Prop :=
  ∀ (rd rs rt : Reg) (s : State),
    decode defaultOpcodes (0b000000#6 ++ regBits rs ++ regBits rt ++ regBits rd ++ 0b00000#5 ++ 0b100100#6) =
      .ok (.and rd rs rt) ∧
    (writeAllowed rd s → ∃ t, exec (.and rd rs rt) s = .next t ∧
      (∀ k, (readReg rd t).getLsbD k =
        (decide (rd ≠ 0) && ((readReg rs s).getLsbD k && (readReg rt s).getLsbD k))) ∧
      t.pc = s.pc + 4#32 ∧ registersKept [rd] s t ∧ dataKept s t ∧ programKept s t) ∧
    (¬ writeAllowed rd s → exec (.and rd rs rt) s = .fault .zeroRegisterWrite)

/-- R136: `or`, its encoding, bit by bit, its frame; it completes in every state that allows the write, and is the error of
the write in the others. The numeral is log 3, register 0 log 4. -/
def Obligations.OrWritesBitwiseOr : Prop :=
  ∀ (rd rs rt : Reg) (s : State),
    decode defaultOpcodes (0b000000#6 ++ regBits rs ++ regBits rt ++ regBits rd ++ 0b00000#5 ++ 0b100101#6) =
      .ok (.or rd rs rt) ∧
    (writeAllowed rd s → ∃ t, exec (.or rd rs rt) s = .next t ∧
      (∀ k, (readReg rd t).getLsbD k =
        (decide (rd ≠ 0) && ((readReg rs s).getLsbD k || (readReg rt s).getLsbD k))) ∧
      t.pc = s.pc + 4#32 ∧ registersKept [rd] s t ∧ dataKept s t ∧ programKept s t) ∧
    (¬ writeAllowed rd s → exec (.or rd rs rt) s = .fault .zeroRegisterWrite)

/-- R137: `slt`, its encoding, the signed comparison, its frame; it completes in every state that allows the write, and is
the error of the write in the others. The numeral is log 3, register 0 log 4. -/
def Obligations.SltWritesSignedComparison : Prop :=
  ∀ (rd rs rt : Reg) (s : State),
    decode defaultOpcodes (0b000000#6 ++ regBits rs ++ regBits rt ++ regBits rd ++ 0b00000#5 ++ 0b101010#6) =
      .ok (.slt rd rs rt) ∧
    (writeAllowed rd s → ∃ t, exec (.slt rd rs rt) s = .next t ∧
      (readReg rd t).toNat = (if rd ≠ 0 ∧ (readReg rs s).toInt < (readReg rt s).toInt then 1 else 0) ∧
      t.pc = s.pc + 4#32 ∧ registersKept [rd] s t ∧ dataKept s t ∧ programKept s t) ∧
    (¬ writeAllowed rd s → exec (.slt rd rs rt) s = .fault .zeroRegisterWrite)

/-- R138: `sll`, its encoding, bits lost at the left and zeros at the right, its frame; it completes in every state that
allows the write, and is the error of the write in the others. The numeral is log 3, register 0 log 4. -/
def Obligations.SllShiftsLeftByField : Prop :=
  ∀ (rd rt : Reg) (shamt : BitVec 5) (s : State),
    decode defaultOpcodes (0b000000#6 ++ 0b00000#5 ++ regBits rt ++ regBits rd ++ shamt ++ 0b000000#6) =
      .ok (.sll rd rt shamt.toNat) ∧
    (writeAllowed rd s → ∃ t, exec (.sll rd rt shamt.toNat) s = .next t ∧
      (readReg rd t).toNat = (if rd = 0 then 0 else (readReg rt s).toNat * 2 ^ shamt.toNat % 2 ^ 32) ∧
      t.pc = s.pc + 4#32 ∧ registersKept [rd] s t ∧ dataKept s t ∧ programKept s t) ∧
    (¬ writeAllowed rd s → exec (.sll rd rt shamt.toNat) s = .fault .zeroRegisterWrite)

/-- R139: `srl`, its encoding, the unsigned quotient (zeros enter), its frame; it completes in every state that allows the
write, and is the error of the write in the others. The numeral is log 3, register 0 log 4. -/
def Obligations.SrlShiftsRightUnsigned : Prop :=
  ∀ (rd rt : Reg) (shamt : BitVec 5) (s : State),
    decode defaultOpcodes (0b000000#6 ++ 0b00000#5 ++ regBits rt ++ regBits rd ++ shamt ++ 0b000010#6) =
      .ok (.srl rd rt shamt.toNat) ∧
    (writeAllowed rd s → ∃ t, exec (.srl rd rt shamt.toNat) s = .next t ∧
      (readReg rd t).toNat = (if rd = 0 then 0 else (readReg rt s).toNat / 2 ^ shamt.toNat) ∧
      t.pc = s.pc + 4#32 ∧ registersKept [rd] s t ∧ dataKept s t ∧ programKept s t) ∧
    (¬ writeAllowed rd s → exec (.srl rd rt shamt.toNat) s = .fault .zeroRegisterWrite)

/-! ## Immediate and memory (42_immediate_memory.md, 20_memory.md) -/

/-- R151, R87: `addi`, its encoding with a sign-extended field, its wrapped sum, its frame; it completes in every state that
allows the write, and is the error of the write in the others. The numeral is log 3, the wrap log 16, register 0 log 4. -/
def Obligations.AddiAddsSignedImmediate : Prop :=
  ∀ (rt rs : Reg) (imm : BitVec 16) (s : State),
    decode defaultOpcodes (0b001000#6 ++ regBits rs ++ regBits rt ++ imm) = .ok (.addi rt rs imm.toInt) ∧
    immWord imm.toInt = sext32 imm ∧
    (writeAllowed rt s → ∃ t, exec (.addi rt rs imm.toInt) s = .next t ∧
      ((readReg rt t).toNat : Int) = (if rt = 0 then 0 else ((readReg rs s).toNat + imm.toInt : Int) % 2 ^ 32) ∧
      t.pc = s.pc + 4#32 ∧ registersKept [rt] s t ∧ dataKept s t ∧ programKept s t) ∧
    (¬ writeAllowed rt s → exec (.addi rt rs imm.toInt) s = .fault .zeroRegisterWrite)

/-- R152: the effective address subtracts the offset, modulo 2^32. -/
def Obligations.EffectiveAddressSubtractsOffset : Prop :=
  ∀ (offset : Int) (rs : Reg) (s : State),
    ((effectiveAddress offset rs s).toNat : Int) = ((readReg rs s).toNat - offset : Int) % 2 ^ 32

/-- R55, R56: the legal data addresses are those on the stride of the memory, 3 modulo 4, from
`BASE_DATA - 4*DMEM_WORDS + 4` up (the stride is the spec's own decision D10); alignment is tested before range (R57,
the spec's own decision D12; log 17). -/
def Obligations.LegalDataAddresses : Prop :=
  ∀ (c : Config) (addr : Word), c.legal = true →
    (dataError c addr = none ↔
      addr.toNat % 4 = 3 ∧ c.baseData.toNat - 4 * c.dmemWords + 4 ≤ addr.toNat ∧ addr.toNat ≤ c.baseData.toNat) ∧
    (dataError c addr = some (.dataMisaligned addr) ↔ addr.toNat % 4 ≠ 3) ∧
    (dataError c addr = some (.dataOutOfRange addr) ↔
      addr.toNat % 4 = 3 ∧ addr.toNat < c.baseData.toNat - 4 * c.dmemWords + 4)

/-- R153: `lw`, its encoding; from a legal address it completes and loads the slot's word; from another it ends in the
error of that address, whatever its destination. The numeral is log 3, register 0 log 4. -/
def Obligations.LwLoadsTheSlot : Prop :=
  ∀ (rt rs : Reg) (offset : BitVec 16) (s : State), s.config.legal = true →
    let ea := readReg rs s - sext32 offset
    let d := (s.config.baseData - ea).toNat
    decode defaultOpcodes (0b100011#6 ++ regBits rs ++ regBits rt ++ offset) = .ok (.lw rt offset.toInt rs) ∧
    (d % 4 = 0 → d / 4 < s.config.dmemWords → writeAllowed rt s →
      ∃ t, exec (.lw rt offset.toInt rs) s = .next t ∧
        readReg rt t = (if rt = 0 then 0#32 else slotWord (d / 4) s) ∧
        t.pc = s.pc + 4#32 ∧ registersKept [rt] s t ∧ dataKept s t ∧ programKept s t) ∧
    (d % 4 = 0 → d / 4 < s.config.dmemWords → ¬ writeAllowed rt s →
      exec (.lw rt offset.toInt rs) s = .fault .zeroRegisterWrite) ∧
    (d % 4 ≠ 0 → exec (.lw rt offset.toInt rs) s = .fault (.dataMisaligned ea)) ∧
    (d % 4 = 0 → s.config.dmemWords ≤ d / 4 → exec (.lw rt offset.toInt rs) s = .fault (.dataOutOfRange ea))

/-- R154: `sw`, its encoding; to a legal address it completes, the slot holds the register's word, every byte outside the
slot's four and every register stay; to another it ends in the error of that address. The numeral is log 3, the cells
log 1. -/
def Obligations.SwStoresTheSlot : Prop :=
  ∀ (rt rs : Reg) (offset : BitVec 16) (s : State), s.config.legal = true →
    let ea := readReg rs s - sext32 offset
    let d := (s.config.baseData - ea).toNat
    decode defaultOpcodes (0b101011#6 ++ regBits rs ++ regBits rt ++ offset) = .ok (.sw rt offset.toInt rs) ∧
    (d % 4 = 0 → d / 4 < s.config.dmemWords →
      ∃ t, exec (.sw rt offset.toInt rs) s = .next t ∧
        slotWord (d / 4) t = readReg rt s ∧
        (∀ k, k < s.config.dmemWords → k ≠ d / 4 → slotWord k t = slotWord k s) ∧
        (∀ a, a + 3 < ea.toNat ∨ ea.toNat < a → t.dmem.readByte a = s.dmem.readByte a) ∧
        t.pc = s.pc + 4#32 ∧ registersKept [] s t ∧ programKept s t) ∧
    (d % 4 ≠ 0 → exec (.sw rt offset.toInt rs) s = .fault (.dataMisaligned ea)) ∧
    (d % 4 = 0 → s.config.dmemWords ≤ d / 4 → exec (.sw rt offset.toInt rs) s = .fault (.dataOutOfRange ea))

/-- R32, R58, R67: a step changes data memory only by a `sw`, and then only in the slot it stores to (the cells
are log 1). -/
def Obligations.OnlyStoresChangeData : Prop :=
  ∀ s t : State, s.config.legal = true → step s = .next t →
    (nextStore s = none → dataKept s t) ∧
    ∀ addr v, nextStore s = some (addr, v) →
      (∀ k, k < s.config.dmemWords →
        slotWord k t = if slotAddress s.config k = addr then v else slotWord k s) ∧
      ∀ a, a + 3 < addr.toNat ∨ addr.toNat < a → t.dmem.readByte a = s.dmem.readByte a

/-- R64: after a reset, a slot holds the value of the most recent store to it in program order, or zero if there was
none, and a load returns that. -/
def Obligations.LoadReturnsMostRecentStore : Prop :=
  ∀ (n k : Nat) (s₀ : State), s₀.config.legal = true → k < s₀.config.dmemWords →
    let s := (runFor n (hostReset s₀)).1
    let held := lastStore (slotAddress s₀.config k) (storesDuring n (hostReset s₀)) 0#32
    slotWord k s = held ∧
    ∀ (rt rs : Reg) (offset : Int), rt ≠ 0 → effectiveAddress offset rs s = slotAddress s₀.config k →
      ∃ t, exec (.lw rt offset rs) s = .next t ∧ readReg rt t = held

/-- R30, R67: no step and no reset changes the program or what a fetch returns; only an accepted load does. That a load too
long leaves the program is the spec's decision D20 (log 22); no event changes the configuration (log 2). -/
def Obligations.OnlyLoadChangesProgram : Prop :=
  ∀ (s : State),
    (handle .step s).1.imem = s.imem ∧ (handle .reset s).1.imem = s.imem ∧
    (∀ addr, iFetch addr (handle .step s).1 = iFetch addr s ∧ iFetch addr (handle .reset s).1 = iFetch addr s) ∧
    (∀ words, (handle (.load words) s).1.imem = if words.length ≤ s.config.imemWords then words else s.imem) ∧
    ∀ e : Event, (handle e s).1.config = s.config

/-! ## Branches and jumps (43_control_transfer.md) -/

/-- R173, R172: `beq`, its encoding, taken exactly when the registers are equal; it completes in every state. The numeral is
log 3. -/
def Obligations.BeqBranchesWhenEqual : Prop :=
  ∀ (rs rt : Reg) (imm : BitVec 16) (s : State),
    decode defaultOpcodes (0b000100#6 ++ regBits rs ++ regBits rt ++ imm) = .ok (.beq rs rt imm.toInt) ∧
    ∃ t, exec (.beq rs rt imm.toInt) s = .next t ∧
      (t.pc.toNat : Int) =
        (if readReg rs s = readReg rt s then (s.pc.toNat + 4 + imm.toInt * 4 : Int) else s.pc.toNat + 4) % 2 ^ 32 ∧
      registersKept [] s t ∧ dataKept s t ∧ programKept s t

/-- R174, R172: `bne`, its encoding, taken exactly when the registers differ; it completes in every state. The numeral is
log 3. -/
def Obligations.BneBranchesWhenDifferent : Prop :=
  ∀ (rs rt : Reg) (imm : BitVec 16) (s : State),
    decode defaultOpcodes (0b000101#6 ++ regBits rs ++ regBits rt ++ imm) = .ok (.bne rs rt imm.toInt) ∧
    ∃ t, exec (.bne rs rt imm.toInt) s = .next t ∧
      (t.pc.toNat : Int) =
        (if readReg rs s = readReg rt s then (s.pc.toNat + 4 : Int) else s.pc.toNat + 4 + imm.toInt * 4) % 2 ^ 32 ∧
      registersKept [] s t ∧ dataKept s t ∧ programKept s t

/-- R175: `j`, its encoding, its target with the upper four bits of the jump's own address; it completes in every
state. The numeral is log 3. -/
def Obligations.JumpTargetKeepsUpperBits : Prop :=
  ∀ (target : BitVec 26) (s : State),
    decode defaultOpcodes (0b000010#6 ++ target) = .ok (.j target.toNat) ∧
    ∃ t, exec (.j target.toNat) s = .next t ∧
      t.pc.toNat = s.pc.toNat / 2 ^ 28 * 2 ^ 28 + target.toNat * 4 ∧
      registersKept [] s t ∧ dataKept s t ∧ programKept s t

/-- R176: `jal`, its encoding, the link `pc + 4` in register 31 and the target of `j`, both from the old PC; it completes
in every state. The numeral is log 3. -/
def Obligations.JalLinksNextAddress : Prop :=
  ∀ (target : BitVec 26) (s : State),
    decode defaultOpcodes (0b000011#6 ++ target) = .ok (.jal target.toNat) ∧
    ∃ t, exec (.jal target.toNat) s = .next t ∧
      (readReg 31 t).toNat = (s.pc.toNat + 4) % 2 ^ 32 ∧
      t.pc.toNat = s.pc.toNat / 2 ^ 28 * 2 ^ 28 + target.toNat * 4 ∧
      registersKept [31] s t ∧ dataKept s t ∧ programKept s t

/-- R177: `jr`, its encoding, with whatever stands in the fields `rt`, `rd`, `shamt` (log 10); the PC is the register's
whole value, unchecked; it completes in every state. -/
def Obligations.JrCopiesRegisterToPc : Prop :=
  ∀ (rs : Reg) (rt rd shamt : BitVec 5) (s : State),
    decode defaultOpcodes (0b000000#6 ++ regBits rs ++ rt ++ rd ++ shamt ++ 0b001000#6) = .ok (.jr rs) ∧
    ∃ t, exec (.jr rs) s = .next t ∧
      t.pc = readReg rs s ∧ registersKept [] s t ∧ dataKept s t ∧ programKept s t

/-- R179: a call and its return. After a `jal`, any later state that still holds the link in register 31 returns by
`jr $ra` to the instruction after the call. -/
def Obligations.JrReturnsAfterJal : Prop :=
  ∀ (target : Nat) (s t u : State), exec (.jal target) s = .next t → readReg 31 u = readReg 31 t →
    ∃ v, exec (.jr 31) u = .next v ∧ v.pc = s.pc + 4#32

/-- R180: the round trips the source states as testable. A branch at index `i` to a label at index `k` encodes
`k - (i + 1)` and, taken, goes to `BASE_INSTR + 4*k`; a jump to an address whose top four bits are the PC's goes
there. -/
def Obligations.BranchAndJumpRoundTrip : Prop :=
  (∀ (i k : Nat) (rs rt : Reg) (s : State),
    let disp := branchDisplacement (instructionAddress s.config k) (instructionAddress s.config i)
    s.config.opcodes.legal = true → imm16Fits disp = true → s.pc = s.config.baseInstr + BitVec.ofNat 32 (4 * i) →
      disp = (k : Int) - (i + 1) ∧
      decode s.config.opcodes (encode s.config.opcodes (.beq rs rt disp)) = .ok (.beq rs rt disp) ∧
      decode s.config.opcodes (encode s.config.opcodes (.bne rs rt disp)) = .ok (.bne rs rt disp) ∧
      (readReg rs s = readReg rt s → ∃ t, exec (.beq rs rt disp) s = .next t ∧
        t.pc = s.config.baseInstr + BitVec.ofNat 32 (4 * k)) ∧
      (readReg rs s ≠ readReg rt s → ∃ t, exec (.bne rs rt disp) s = .next t ∧
        t.pc = s.config.baseInstr + BitVec.ofNat 32 (4 * k))) ∧
  ∀ (a : Word) (s : State), s.config.opcodes.legal = true → a.toNat % 4 = 0 → a.extractLsb' 28 4 = s.pc.extractLsb' 28 4 →
    decode s.config.opcodes (encode s.config.opcodes (.j (jumpField a.toNat))) = .ok (.j (jumpField a.toNat)) ∧
    decode s.config.opcodes (encode s.config.opcodes (.jal (jumpField a.toNat))) = .ok (.jal (jumpField a.toNat)) ∧
    (∃ t, exec (.j (jumpField a.toNat)) s = .next t ∧ t.pc = a) ∧
    ∃ t, exec (.jal (jumpField a.toNat)) s = .next t ∧ t.pc = a

/-! ## The step (40_execution_cycle.md) -/

/-- R114, R118: when the fetched word decodes to an instruction, the step is `exec` of it on the same state, nothing
before and nothing after. -/
def Obligations.StepRunsDecodedInstruction : Prop :=
  ∀ (s : State) (w : Word) (i : Instr),
    s.finished = false → iFetch s.pc s = .ok w → decode s.config.opcodes w = .ok i → step s = exec i s

/-- R111, R112, R178: what the next step makes of the PC it finds: at or above `END` the machine is finished and nothing
changes; below it, a misaligned PC and then a PC below the base are errors; else the word of the program at that
index is executed. The unsigned comparison and the order of the tests are the spec's own decisions D14, D12 (log 6,
log 17); that a finished step answers the same state is the model's form (log 5). -/
def Obligations.StepJudgesThePc : Prop :=
  ∀ s : State,
    let pc := s.pc.toNat
    let base := s.config.baseInstr.toNat
    let last := base + 4 * s.imem.length
    (last ≤ pc → step s = .next s ∧ hostStep s = (s, .finished) ∧ isFinished s = true) ∧
    (pc < last → isFinished s = false) ∧
    (pc < last → pc % 4 ≠ 0 → step s = .fault (.fetchMisaligned s.pc)) ∧
    (pc < last → pc % 4 = 0 → pc < base → step s = .fault (.fetchOutOfRange s.pc)) ∧
    (pc < last → pc % 4 = 0 → base ≤ pc →
      ∃ w, s.imem[(pc - base) / 4]? = some w ∧ step s = executeWord w s)

/-- R28: how each step changes the PC; sums wrap (the spec's own decision D8). -/
def Obligations.PcAfterEachStep : Prop :=
  ∀ s : State,
    ((hostStep s).2 ≠ .ok → (hostStep s).1.pc = s.pc) ∧
    ∀ (w : Word) (i : Instr) (t : State),
      s.finished = false → iFetch s.pc s = .ok w → decode s.config.opcodes w = .ok i → step s = .next t →
      t.pc =
        match i with
        | .beq rs rt disp =>
          if readReg rs s = readReg rt s then s.pc + 4#32 + BitVec.ofInt 32 (disp * 4) else s.pc + 4#32
        | .bne rs rt disp =>
          if readReg rs s = readReg rt s then s.pc + 4#32 else s.pc + 4#32 + BitVec.ofInt 32 (disp * 4)
        | .j target => (s.pc &&& 0xF0000000#32) ||| BitVec.ofNat 32 (4 * target)
        | .jal target => (s.pc &&& 0xF0000000#32) ||| BitVec.ofNat 32 (4 * target)
        | .jr rs => readReg rs s
        | _ => s.pc + 4#32

/-- R119: a step is total. It answers a next state or one of the five errors a step can raise (their codes are the spec's
own, D13), under `ZERO_WRITE = fail` also the error of a write to register 0 (log 4), and never refuses. -/
def Obligations.StepIsTotal : Prop :=
  ∀ s : State, (∃ t, step s = .next t) ∨ ∃ f : Fault, step s = .fault f ∧
    ((1 ≤ f.code ∧ f.code ≤ 5) ∨ (f = .zeroRegisterWrite ∧ s.config.zeroWrite = .fail))

/-- R171, R178: only `jr` can leave an aligned PC for a misaligned one. -/
def Obligations.PcStaysAlignedUnlessJr : Prop :=
  ∀ s t : State, s.pcAligned → step s = .next t → (∀ rs, nextInstr s ≠ some (.jr rs)) → t.pcAligned

/-! ## Errors (60_exceptions.md) -/

/-- R242, R248: each error of a step has exactly the cause, the `info` and the code of the table, in the order of the
phases. Names, codes and the order of alignment before range are the spec's own decisions D13, D12 (log 17);
the last error, code 7, is U1's (log 4). -/
def Obligations.EachErrorHasItsCause : Prop :=
  ∀ s : State,
    (∀ p, step s = .fault (.fetchMisaligned p) ↔
      p = s.pc ∧ s.pc.toNat < s.config.baseInstr.toNat + 4 * s.instructionCount ∧ s.pc.toNat % 4 ≠ 0) ∧
    (∀ p, step s = .fault (.fetchOutOfRange p) ↔
      p = s.pc ∧ s.pc.toNat % 4 = 0 ∧ s.pc.toNat < s.config.baseInstr.toNat) ∧
    (s.config.opcodes.legal = true → ∀ w, step s = .fault (.unsupportedInstruction w) ↔
      s.finished = false ∧ iFetch s.pc s = .ok w ∧ ∀ p ∈ patternTable s.config.opcodes, w &&& p.mask ≠ p.pattern) ∧
    (∀ ea, step s = .fault (.dataMisaligned ea) ↔
      ∃ rt offset rs, (nextInstr s = some (.lw rt offset rs) ∨ nextInstr s = some (.sw rt offset rs)) ∧
        ea = readReg rs s - BitVec.ofInt 32 offset ∧ (s.config.baseData - ea).toNat % 4 ≠ 0) ∧
    (∀ ea, step s = .fault (.dataOutOfRange ea) ↔
      ∃ rt offset rs, (nextInstr s = some (.lw rt offset rs) ∨ nextInstr s = some (.sw rt offset rs)) ∧
        ea = readReg rs s - BitVec.ofInt 32 offset ∧ (s.config.baseData - ea).toNat % 4 = 0 ∧
        s.config.dmemWords ≤ (s.config.baseData - ea).toNat / 4) ∧
    (∀ k, step s ≠ .fault (.regIndexOutOfRange k)) ∧
    (step s = .fault .zeroRegisterWrite ↔
      s.config.zeroWrite = .fail ∧ ∃ i, nextInstr s = some i ∧ (0 : Reg) ∈ i.writes ∧
        ∀ rt offset rs, i = .lw rt offset rs →
          dataError s.config (readReg rs s - BitVec.ofInt 32 offset) = none) ∧
    (∀ p k, (Fault.fetchMisaligned p).code = 1 ∧ (Fault.fetchOutOfRange p).code = 2 ∧
      (Fault.unsupportedInstruction p).code = 3 ∧ (Fault.dataMisaligned p).code = 4 ∧
      (Fault.dataOutOfRange p).code = 5 ∧ (Fault.regIndexOutOfRange k).code = 6 ∧ Fault.zeroRegisterWrite.code = 7)

/-- R241, R243: an error changes no state, the CPU is not finished, and every further step reports the same error (the
spec's own decision D11, log 18). -/
def Obligations.ErrorChangesNothingAndRepeats : Prop :=
  ∀ (s u : State) (f : Fault), hostStep s = (u, .error f) →
    u = s ∧ isFinished u = false ∧ hostStep u = (u, .error f) ∧ ∀ n, runFor (n + 1) u = (u, .error f)

/-! ## Reset, load, histories (70_reset_and_hazards.md, 10_state.md) -/

/-- R41, R260: the state after construction, after `reset()` and after an accepted load (that a load resets is the spec's
own decision D20, log 22), and the values the value column of R7 and the table of R92 give the hardware's own reset
state. -/
def Obligations.ResetValues : Prop :=
  (∀ t : State,
    ((∃ c, t = State.initial c) ∨ (∃ s, t = hostReset s) ∨ ∃ words s, load words s = .next t) →
    t.pc = t.config.baseInstr ∧ readReg 29 t = t.config.baseData ∧ (∀ r, r ≠ 29 → readReg r t = 0#32) ∧
    (∀ k, k < t.config.dmemWords → slotWord k t = 0#32) ∧ (∀ a, t.dmem.readByte a = 0#8) ∧
    (∀ c, (State.initial c).instructionCount = 0) ∧ (∀ s, (hostReset s).imem = s.imem) ∧
    (∀ words s, load words s = .next t → t.imem = words ∧ t.instructionCount = words.length) ∧
    (isFinished t = false ↔ 0 < t.instructionCount)) ∧
  State.reset.pc = 0x00400000#32 ∧ readReg 29 State.reset = 0xFFFFFFFF#32 ∧
  State.reset.config = ⟨0x00400000#32, 0xFFFFFFFF#32, 128, 128, .ignore, .strict, defaultOpcodes⟩

/-- R261: `reset()` in any state: the PC, the registers and the data memory take their construction values, the program
stays, nothing else of the state before is left (the parameters of the machine are no state, R7, R15), a second reset changes
nothing, and with a program the CPU runs. -/
def Obligations.ResetForgetsEverythingButProgram : Prop :=
  ∀ s u : State,
    handle .reset s = (hostReset s, .ok) ∧ (hostReset s).config = s.config ∧
    (hostReset s).pc = s.config.baseInstr ∧
    (∀ r, readReg r (hostReset s) = if r = 29 then s.config.baseData else 0#32) ∧
    (∀ k, k < s.config.dmemWords → slotWord k (hostReset s) = 0#32) ∧
    (hostReset s).imem = s.imem ∧ (hostReset s).instructionCount = s.instructionCount ∧
    (s.imem = u.imem → s.config = u.config → hostReset s = hostReset u) ∧ hostReset (hostReset s) = hostReset s ∧
    (s.imem ≠ [] → isFinished (hostReset s) = false)

/-- R262: a program that is too long is refused and nothing changes; another replaces the whole program with a full
reset, whatever the words and whatever the state before (the spec's own decision D20, log 22). -/
def Obligations.LoadReplacesOrRefuses : Prop :=
  ∀ (words : List Word) (s u : State),
    (s.config.imemWords < words.length →
      load words s = .refused (.programTooLong words.length) ∧
      handle (.load words) s = (s, .refused (.programTooLong words.length))) ∧
    (words.length ≤ s.config.imemWords →
      load words s = .next { State.initial s.config with imem := words } ∧
      (s.config = u.config → load words s = load words u) ∧
      handle (.load words) s = ({ State.initial s.config with imem := words }, .ok))

/-- The invariant of the model holds at reset, and after construction with any legal configuration (R7, R41, R42; the
canonical form of the data cells is the model's, log 1). -/
def Obligations.ResetStateIsSound : Prop :=
  State.reset.Inv ∧ ∀ c : Config, c.legal = true → (State.initial c).Inv

/-- R42 on the model's data: from every state that meets the invariant, not only a reachable one, every event, a step
among them, gives a state that meets it (the canonical form of the data cells is the model's, log 1). -/
def Obligations.EveryEventKeepsInvariant : Prop :=
  (∀ s t : State, s.Inv → step s = .next t → t.Inv) ∧ ∀ (e : Event) (s : State), s.Inv → (handle e s).1.Inv

/-- R42: in every state reached from construction by events, register 0 is zero, the program fits, the instruction memory is
what the last load put there, and the data memory is sound (an inference the spec marks as its own; the canonical form of
the data cells is the model's, log 1). -/
def Obligations.InvariantOfEveryHistory : Prop :=
  ∀ (c : Config) (es : List Event), c.legal = true →
    (afterEvents c es).Inv ∧ readReg 0 (afterEvents c es) = 0#32 ∧
    (afterEvents c es).imem = lastLoaded c es ∧ (afterEvents c es).instructionCount ≤ c.imemWords

/-! ## The assembler (44_assembler.md) -/

/-- R207 to R214: every word the assembler emits is the word of a well-formed instruction, and a CPU of the same
legal opcode map decodes it to that instruction. -/
def Obligations.AssembledWordsAreInstructions : Prop :=
  ∀ (c : Config) (text : List Char) (words : List Word), assemble c text = .ok words →
    ∀ w ∈ words, ∃ i : Instr, i.wf = true ∧ encode c.opcodes i = w ∧
      (c.opcodes.legal = true → decode c.opcodes w = .ok i)

/-- R191, R192, R198, R214: a text is its lines, numbered from 1; cleaning a line removes its comment and the white space
around the rest (the white-space characters are the spec's own decision D16, log 15); and the output has one word per
instruction line, in the order of the lines, each encoded at its own address against the whole label map. -/
def Obligations.OneWordPerInstructionLine : Prop :=
  let white (ch : Char) : Prop := ch = ' ' ∨ ch = '\t' ∨ ch = '\r'
  (∀ lines : List (List Char), lines ≠ [] → (∀ line ∈ lines, '\n' ∉ line) →
    cleanedLines (List.intercalate ['\n'] lines) =
      ((lines.zipIdx 1).map fun x => (x.2, cleanLine x.1)).filter fun l => decide (l.2 ≠ [])) ∧
  (∀ left core right comment : List Char, (∀ ch ∈ left, white ch) → (∀ ch ∈ right, white ch) → '#' ∉ core →
    (∀ ch, core.head? = some ch → ¬ white ch) → (∀ ch, core.getLast? = some ch → ¬ white ch) →
    cleanLine (left ++ core ++ right) = core ∧ cleanLine (left ++ core ++ right ++ '#' :: comment) = core) ∧
  ∀ (c : Config) (text : List Char) (words : List Word), assemble c text = .ok words →
    let lines := (cleanedLines text).filter isInstructionLine
    words.length = lines.length ∧
    ∃ labels, buildLabels c (cleanedLines text) 0 [] = .ok labels ∧
      ∀ (k : Nat) (line : Nat × List Char), lines[k]? = some line →
        ∃ i, assembleLine (instructionAddress c k) labels line.2 = .ok i ∧ words[k]? = some (encode c.opcodes i)

/-- R193 to R196: a label line is an identifier, white space if any, and a colon (the shape of an identifier is the spec's
own decision D17, log 15); pass 1 binds each label to the address of the next instruction line, and to nothing else. -/
def Obligations.LabelsBindNextInstruction : Prop :=
  let first (ch : Char) : Prop := ('a' ≤ ch ∧ ch ≤ 'z') ∨ ('A' ≤ ch ∧ ch ≤ 'Z') ∨ ch = '_'
  let further (ch : Char) : Prop := first ch ∨ ('0' ≤ ch ∧ ch ≤ '9')
  (∀ line name : List Char, labelOfLine line = some name ↔
    (∃ ch rest, name = ch :: rest ∧ first ch ∧ ∀ d ∈ rest, further d) ∧
    ∃ spaces : List Char, (∀ ch ∈ spaces, ch = ' ' ∨ ch = '\t' ∨ ch = '\r') ∧ line = name ++ spaces ++ [':']) ∧
  (∀ line : Nat × List Char, isInstructionLine line = true ↔ ∀ name, labelOfLine line.2 ≠ some name) ∧
  ∀ (c : Config) (text : List Char) (labels : LabelMap), buildLabels c (cleanedLines text) 0 [] = .ok labels →
    ∀ (name : List Char) (a : Nat), labels.address name = some a ↔
      ∃ before line after, cleanedLines text = before ++ line :: after ∧ labelOfLine line.2 = some name ∧
        a = c.baseInstr.toNat + 4 * (before.filter isInstructionLine).length

/-- R195, R197: pass 1 fails exactly when a name is declared twice, with `DuplicateLabel` at the first line that declares
a name again (the error is the spec's own decision D17, log 15). -/
def Obligations.DuplicateLabelIsRejected : Prop :=
  ∀ (c : Config) (text : List Char),
    let names := (cleanedLines text).filterMap fun l => labelOfLine l.2
    ((∃ labels, buildLabels c (cleanedLines text) 0 [] = .ok labels) ↔ names.Nodup) ∧
    ∀ e, buildLabels c (cleanedLines text) 0 [] = .error e →
      e.kind = .duplicateLabel ∧
      ∃ before line after, cleanedLines text = before ++ line :: after ∧ line.1 = e.line ∧
        labelOfLine line.2 = some e.detail ∧ (∃ l ∈ before, labelOfLine l.2 = some e.detail) ∧
        (before.filterMap fun l => labelOfLine l.2).Nodup

/-- R230, R232: a failed assembly reports pass 1's error if there is one, else the first instruction line that does not
assemble, every instruction line before it assembling (the spec's own decision D15, log 15). -/
def Obligations.FirstFailingLineIsReported : Prop :=
  ∀ (c : Config) (text : List Char) (e : AsmError), assemble c text = .error e →
    buildLabels c (cleanedLines text) 0 [] = .error e ∨
    ∃ labels, buildLabels c (cleanedLines text) 0 [] = .ok labels ∧
      ∃ (k : Nat) (line : Nat × List Char),
        ((cleanedLines text).filter isInstructionLine)[k]? = some line ∧ line.1 = e.line ∧
        assembleLine (instructionAddress c k) labels line.2 = .error (e.kind, e.detail) ∧
        ∀ (m : Nat) (earlier : Nat × List Char), m < k →
          ((cleanedLines text).filter isInstructionLine)[m]? = some earlier →
          ∃ i, assembleLine (instructionAddress c m) labels earlier.2 = .ok i

/-- R207 to R210, R201: with register operands that name registers, `add sub and or slt` take `rd, rs, rt` in that order and
`jr` takes `rs`; a shift amount is accepted exactly in `[0, 31]` and an `addi` immediate exactly in `[-32768, 32767]`; an
integer outside is `OutOfRange`, anything else `BadNumber`. In every form that takes registers, the leftmost register operand
that names none is `BadRegister`, whatever stands to the right of it (R232: the order is the spec's own decision D15, log 15).
The detail of an error is log 12. -/
def Obligations.NumericOperandsAreRangeChecked : Prop :=
  ∀ (cur : Nat) (labels : LabelMap) (ta tb tc tn : List Char) (a b c : Reg),
    registerOfName ta = some a → registerOfName tb = some b → registerOfName tc = some c →
    (assembleOperands cur labels "add".toList [ta, tb, tc] = .ok (.add a b c) ∧
      assembleOperands cur labels "sub".toList [ta, tb, tc] = .ok (.sub a b c) ∧
      assembleOperands cur labels "and".toList [ta, tb, tc] = .ok (.and a b c) ∧
      assembleOperands cur labels "or".toList [ta, tb, tc] = .ok (.or a b c) ∧
      assembleOperands cur labels "slt".toList [ta, tb, tc] = .ok (.slt a b c) ∧
      assembleOperands cur labels "jr".toList [ta] = .ok (.jr a)) ∧
    (∀ n : Int, readInteger tn = some n →
      assembleOperands cur labels "sll".toList [ta, tb, tn] =
        (if 0 ≤ n ∧ n ≤ 31 then .ok (.sll a b n.toNat) else .error (.outOfRange, tn)) ∧
      assembleOperands cur labels "srl".toList [ta, tb, tn] =
        (if 0 ≤ n ∧ n ≤ 31 then .ok (.srl a b n.toNat) else .error (.outOfRange, tn)) ∧
      assembleOperands cur labels "addi".toList [ta, tb, tn] =
        (if -32768 ≤ n ∧ n ≤ 32767 then .ok (.addi a b n) else .error (.outOfRange, tn))) ∧
    (readInteger tn = none →
      assembleOperands cur labels "sll".toList [ta, tb, tn] = .error (.badNumber, tn) ∧
      assembleOperands cur labels "srl".toList [ta, tb, tn] = .error (.badNumber, tn) ∧
      assembleOperands cur labels "addi".toList [ta, tb, tn] = .error (.badNumber, tn)) ∧
    ∀ bad x y : List Char, registerOfName bad = none →
      (∀ m ∈ ["add", "sub", "and", "or", "slt", "sll", "srl", "addi", "beq", "bne"],
        assembleOperands cur labels m.toList [bad, x, y] = .error (.badRegister, bad) ∧
        assembleOperands cur labels m.toList [ta, bad, y] = .error (.badRegister, bad)) ∧
      (∀ m ∈ ["add", "sub", "and", "or", "slt"],
        assembleOperands cur labels m.toList [ta, tb, bad] = .error (.badRegister, bad)) ∧
      (∀ m ∈ ["lw", "sw"], assembleOperands cur labels m.toList [bad, x] = .error (.badRegister, bad)) ∧
      assembleOperands cur labels "jr".toList [bad] = .error (.badRegister, bad)

/-- R202: an integer operand is an optional single sign and one or more decimal digits, and nothing else; its value is exact,
and leading zeros do not matter (the spec's own decision D23, log 15). -/
def Obligations.DecimalIntegersAreExact : Prop :=
  (∀ token : List Char, (∃ n, readInteger token = some n) ↔
    ∃ sign digits : List Char, (sign = [] ∨ sign = ['+'] ∨ sign = ['-']) ∧ digits ≠ [] ∧
      (∀ ch ∈ digits, '0' ≤ ch ∧ ch ≤ '9') ∧ token = sign ++ digits) ∧
  ∀ zeros n : Nat,
    let digits := List.replicate zeros '0' ++ Nat.toDigits 10 n
    readInteger digits = some (n : Int) ∧ readInteger ('+' :: digits) = some (n : Int) ∧
    readInteger ('-' :: digits) = some (-(n : Int))

/-- R201, R21: the register names are total over the 32 registers and unambiguous, and a register operand is nothing but one
of them. The first five bindings are the source's; the whole table is the spec's general knowledge (D2, log 11). Where on an
instruction line the operands of this lookup stand, and which is reported, is O53; the detail of an error is log 12. -/
def Obligations.RegisterNamesAreExact : Prop :=
  (registerName 0 = "$zero" ∧ registerName 28 = "$gp" ∧ registerName 29 = "$sp" ∧ registerName 30 = "$fp" ∧
    registerName 31 = "$ra") ∧
  (List.finRange 32).map registerName =
    ["$zero", "$at", "$v0", "$v1", "$a0", "$a1", "$a2", "$a3", "$t0", "$t1", "$t2", "$t3", "$t4", "$t5", "$t6", "$t7",
      "$s0", "$s1", "$s2", "$s3", "$s4", "$s5", "$s6", "$s7", "$t8", "$t9", "$k0", "$k1", "$gp", "$sp", "$fp", "$ra"] ∧
  ∀ token : List Char,
    (∀ r : Reg, regOperand token = .ok r ↔ token = (registerName r).toList) ∧
    ((∀ r : Reg, token ≠ (registerName r).toList) → regOperand token = .error (.badRegister, token))

/-- R199, R205, R206: a line is split at runs of white space and commas (the spec's own decision D16, log 15); its first
token is the mnemonic and the rest are the operands. A first token that is none of the fifteen mnemonics is
`UnknownMnemonic`; a wrong number of operands is `OperandCount`, whatever the operands are. A line with no token is log 13,
the detail of an error log 12. -/
def Obligations.MnemonicAndCountAreCheckedFirst : Prop :=
  let operandCounts : List (String × Nat) := [("add", 3), ("sub", 3), ("and", 3), ("or", 3), ("slt", 3), ("sll", 3),
    ("srl", 3), ("addi", 3), ("beq", 3), ("bne", 3), ("lw", 2), ("sw", 2), ("jr", 1), ("j", 1), ("jal", 1)]
  let separator (ch : Char) : Prop := ch = ' ' ∨ ch = '\t' ∨ ch = '\r' ∨ ch = ','
  (tokensOf [] = [] ∧ (∀ ch rest, separator ch → tokensOf (ch :: rest) = tokensOf rest) ∧
    ∀ token rest : List Char, token ≠ [] → (∀ ch ∈ token, ¬ separator ch) →
      (∀ ch, rest.head? = some ch → separator ch) → tokensOf (token ++ rest) = token :: tokensOf rest) ∧
  ∀ (cur : Nat) (labels : LabelMap) (line : List Char),
    (tokensOf line = [] → assembleLine cur labels line = .error (.unknownMnemonic, [])) ∧
    ∀ (m : List Char) (ops : List (List Char)), tokensOf line = m :: ops →
      assembleLine cur labels line = assembleOperands cur labels m ops ∧
      ((∀ p ∈ operandCounts, p.1.toList ≠ m) → assembleLine cur labels line = .error (.unknownMnemonic, m)) ∧
      ∀ p ∈ operandCounts, p.1.toList = m → ops.length ≠ p.2 →
        assembleLine cur labels line = .error (.operandCount, m)

/-- R203, R212, R213: a label that is not in the map is `UnresolvedLabel`; one that is gives a branch the displacement in
words that the exact division of R212 has, range-checked (the spec's own decision D18, log 15), and a jump the low 26 bits
of its word address, unchecked. The detail of an error is log 12. -/
def Obligations.LabelOperandsAreResolved : Prop :=
  ∀ (cur : Nat) (labels : LabelMap) (ta tb name : List Char) (a b : Reg),
    registerOfName ta = some a → registerOfName tb = some b →
    (labels.address name = none →
      assembleOperands cur labels "beq".toList [ta, tb, name] = .error (.unresolvedLabel, name) ∧
      assembleOperands cur labels "bne".toList [ta, tb, name] = .error (.unresolvedLabel, name) ∧
      assembleOperands cur labels "j".toList [name] = .error (.unresolvedLabel, name) ∧
      assembleOperands cur labels "jal".toList [name] = .error (.unresolvedLabel, name)) ∧
    ∀ target : Nat, labels.address name = some target →
      (∀ disp : Int, disp * 4 = (target : Int) - (cur + 4) →
        assembleOperands cur labels "beq".toList [ta, tb, name] =
          (if -32768 ≤ disp ∧ disp ≤ 32767 then .ok (.beq a b disp) else .error (.outOfRange, name)) ∧
        assembleOperands cur labels "bne".toList [ta, tb, name] =
          (if -32768 ≤ disp ∧ disp ≤ 32767 then .ok (.bne a b disp) else .error (.outOfRange, name))) ∧
      assembleOperands cur labels "j".toList [name] = .ok (.j (target / 4 % 2 ^ 26)) ∧
      assembleOperands cur labels "jal".toList [name] = .ok (.jal (target / 4 % 2 ^ 26))

/-- R204, R211: a memory operand is an integer, `(`, a register name, `)`; each part that is wrong has its error, and a
token with no `(`, with no offset before it or with no `)` at its end is malformed (the spec's own decision D23, log 15).
An empty register text and texts with further parentheses are log 14, the detail of an error is log 12. -/
def Obligations.MemoryOperandIsOffsetAndRegister : Prop :=
  ∀ (cur : Nat) (labels : LabelMap) (ta offset register : List Char) (a : Reg), registerOfName ta = some a →
    let mem : List Char := offset ++ '(' :: (register ++ [')'])
    let lw (token : List Char) := assembleOperands cur labels "lw".toList [ta, token]
    let sw (token : List Char) := assembleOperands cur labels "sw".toList [ta, token]
    let malformed (token : List Char) : Prop :=
      lw token = .error (.badMemOperand, token) ∧ sw token = .error (.badMemOperand, token)
    (∀ (n : Int) (r : Reg), readInteger offset = some n → registerOfName register = some r →
      lw mem = (if -32768 ≤ n ∧ n ≤ 32767 then .ok (.lw a n r) else .error (.outOfRange, mem)) ∧
      sw mem = (if -32768 ≤ n ∧ n ≤ 32767 then .ok (.sw a n r) else .error (.outOfRange, mem))) ∧
    (∀ n : Int, readInteger offset = some n → register ≠ [] → registerOfName register = none →
      lw mem = .error (.badRegister, register) ∧ sw mem = .error (.badRegister, register)) ∧
    (offset ≠ [] → register ≠ [] → '(' ∉ offset → readInteger offset = none →
      lw mem = .error (.badNumber, offset) ∧ sw mem = .error (.badNumber, offset)) ∧
    (∀ token : List Char, '(' ∉ token → malformed token) ∧
    (∀ rest : List Char, malformed ('(' :: rest)) ∧
    (∀ token : List Char, token.getLast? ≠ some ')' → malformed token) ∧
    ('(' ∉ offset → malformed (offset ++ ['(', ')']))

/-- R263: a failed assembly gives its error and no new state (the spec's own decision D15, log 15); after a successful one
that fits, the CPU is in its reset state with the assembled program (that a load resets is the spec's own decision D20,
log 22), ready to run its first word. -/
def Obligations.BringUpLoadsTheProgram : Prop :=
  ∀ (text : List Char) (s : State), s.config.legal = true →
    (∀ e, assemble s.config text = .error e → bringUp text s = .error e) ∧
    ∀ words, assemble s.config text = .ok words → words.length ≤ s.config.imemWords →
      bringUp text s = .ok ({ State.initial s.config with imem := words }, .ok) ∧
      ∀ w rest, words = w :: rest →
        step { State.initial s.config with imem := words } =
          executeWord w { State.initial s.config with imem := words }

/-! ## Immediates (30_encoding.md) -/

/-- R87: the immediate of each of the five I-type instructions is `sext_32` of the word's low 16 bits: those bits, bit 15 in
every bit above them, and as a number the field's two's complement value modulo 2^32. -/
def Obligations.ImmediatesAreSignExtended : Prop :=
  ∀ (m : OpcodeMap) (w : Word) (i : Instr) (n : Int), decode m w = .ok i →
    (∃ x y, i = .addi x y n ∨ i = .lw x n y ∨ i = .sw x n y ∨ i = .beq x y n ∨ i = .bne x y n) →
    let v := w.extractLsb' 0 16
    immWord n = sext32 v ∧ (immWord n).extractLsb' 0 16 = v ∧
    (∀ k, 16 ≤ k → k < 32 → (immWord n).getLsbD k = v.getLsbD 15) ∧
    ((immWord n).toNat : Int) = (if v.toNat < 0x8000 then (v.toNat : Int) else v.toNat - 0x10000) % 2 ^ 32
end

