-- ==== Sys2Proof/Laws/Encoding.lean ====
section
/-! SUPPORT. The fields of an encoded word, format by format, and the numbers fields hold. -/

namespace Sys2Proof

/-! ## Slices of a concatenation -/

theorem extract_append_low {n m : Nat} (x : BitVec n) (y : BitVec m) : (x ++ y).extractLsb' 0 m = y := by
  ext i hi
  simp [BitVec.getLsbD_append, hi]

theorem extract_append_high {n m : Nat} (x : BitVec n) (y : BitVec m) (k len : Nat) :
    (x ++ y).extractLsb' (m + k) len = x.extractLsb' k len := by
  ext i hi
  simp [BitVec.getLsbD_append, Nat.add_assoc]

theorem extract_whole {n : Nat} (x : BitVec n) : x.extractLsb' 0 n = x := by
  ext i hi
  simp

section Layout
variable (m : OpcodeMap) (opcode funct : BitVec 6) (rs rt rd : Reg) (shamt target : Nat) (imm : Int)

/-! ## R-type -/

@[simp] theorem functField_encodeRType : functField (encodeRType m rs rt rd shamt funct) = funct :=
  extract_append_low _ _

@[simp] theorem shamtField_encodeRType :
    shamtField (encodeRType m rs rt rd shamt funct) = shamt % 2 ^ 5 :=
  congrArg BitVec.toNat ((extract_append_high _ funct 0 5).trans (extract_append_low _ _))

@[simp] theorem rdField_encodeRType : rdField (encodeRType m rs rt rd shamt funct) = rd :=
  congrArg BitVec.toFin ((extract_append_high _ funct 5 5).trans
    ((extract_append_high _ (BitVec.ofNat 5 shamt) 0 5).trans (extract_append_low _ (regBits rd))))

@[simp] theorem rtField_encodeRType : rtField (encodeRType m rs rt rd shamt funct) = rt :=
  congrArg BitVec.toFin ((extract_append_high _ funct 10 5).trans
    ((extract_append_high _ (BitVec.ofNat 5 shamt) 5 5).trans
      ((extract_append_high _ (regBits rd) 0 5).trans (extract_append_low _ (regBits rt)))))

@[simp] theorem rsField_encodeRType : rsField (encodeRType m rs rt rd shamt funct) = rs :=
  congrArg BitVec.toFin ((extract_append_high _ funct 15 5).trans
    ((extract_append_high _ (BitVec.ofNat 5 shamt) 10 5).trans
      ((extract_append_high _ (regBits rd) 5 5).trans
        ((extract_append_high _ (regBits rt) 0 5).trans (extract_append_low _ (regBits rs))))))

@[simp] theorem opcodeField_encodeRType : opcodeField (encodeRType m rs rt rd shamt funct) = m.special :=
  (extract_append_high _ funct 20 6).trans
    ((extract_append_high _ (BitVec.ofNat 5 shamt) 15 6).trans
      ((extract_append_high _ (regBits rd) 10 6).trans
        ((extract_append_high _ (regBits rt) 5 6).trans
          ((extract_append_high _ (regBits rs) 0 6).trans (extract_whole m.special)))))

/-! ## I-type -/

@[simp] theorem immField_encodeIType :
    immField (encodeIType opcode rs rt imm) = (BitVec.ofInt 16 imm).toInt :=
  congrArg BitVec.toInt (extract_append_low _ _)

@[simp] theorem rtField_encodeIType : rtField (encodeIType opcode rs rt imm) = rt :=
  congrArg BitVec.toFin ((extract_append_high _ (BitVec.ofInt 16 imm) 0 5).trans
    (extract_append_low _ (regBits rt)))

@[simp] theorem rsField_encodeIType : rsField (encodeIType opcode rs rt imm) = rs :=
  congrArg BitVec.toFin ((extract_append_high _ (BitVec.ofInt 16 imm) 5 5).trans
    ((extract_append_high _ (regBits rt) 0 5).trans (extract_append_low _ (regBits rs))))

@[simp] theorem opcodeField_encodeIType : opcodeField (encodeIType opcode rs rt imm) = opcode :=
  (extract_append_high _ (BitVec.ofInt 16 imm) 10 6).trans
    ((extract_append_high _ (regBits rt) 5 6).trans
      ((extract_append_high _ (regBits rs) 0 6).trans (extract_whole opcode)))

/-! ## J-type -/

@[simp] theorem targetField_encodeJType : targetField (encodeJType opcode target) = target % 2 ^ 26 :=
  congrArg BitVec.toNat (extract_append_low _ (BitVec.ofNat 26 target))

@[simp] theorem opcodeField_encodeJType : opcodeField (encodeJType opcode target) = opcode :=
  (extract_append_high _ (BitVec.ofNat 26 target) 0 6).trans (extract_whole opcode)

end Layout

/-! ## A word is its fields -/

theorem word_eq_of_opcode_rest {w v : Word} (h₁ : w.extractLsb' 26 6 = v.extractLsb' 26 6)
    (h₂ : w.extractLsb' 0 26 = v.extractLsb' 0 26) : w = v := by
  refine BitVec.eq_of_getLsbD_eq fun i _ => ?_
  by_cases h : i < 26
  · simpa [h] using congrArg (fun b => b.getLsbD i) h₂
  · have e : 26 + (i - 26) = i := by omega
    have e' : i - 26 < 6 := by omega
    simpa [e, e'] using congrArg (fun b => b.getLsbD (i - 26)) h₁

theorem word_eq_of_opcode_mid_funct {w v : Word} (h₁ : w.extractLsb' 26 6 = v.extractLsb' 26 6)
    (h₂ : w.extractLsb' 6 20 = v.extractLsb' 6 20) (h₃ : w.extractLsb' 0 6 = v.extractLsb' 0 6) : w = v := by
  refine word_eq_of_opcode_rest h₁ (BitVec.eq_of_getLsbD_eq fun i hi => ?_)
  by_cases h : i < 6
  · simpa [h, hi] using congrArg (fun b => b.getLsbD i) h₃
  · have e : 6 + (i - 6) = i := by omega
    have e' : i - 6 < 20 := by omega
    simpa [e, e', hi] using congrArg (fun b => b.getLsbD (i - 6)) h₂

theorem and_ones6 (v : BitVec 6) : v &&& 63#6 = v :=
  (congrArg (v &&& ·) (by decide : (63#6 : BitVec 6) = BitVec.allOnes 6)).trans BitVec.and_allOnes

/-- The mask of an R-type row leaves the opcode and the funct (R93). -/
theorem mask_rtype (w : Word) : w &&& 0xFC00003F#32 = opcodeField w ++ 0#20 ++ functField w := by
  apply word_eq_of_opcode_mid_funct
  · refine Eq.trans ?_ ((extract_append_high (opcodeField w ++ 0#20) (functField w) 20 6).trans
      ((extract_append_high (opcodeField w) (0#20) 0 6).trans (extract_whole _))).symm
    simp [BitVec.extractLsb'_and, and_ones6, opcodeField]
  · refine Eq.trans ?_ ((extract_append_high (opcodeField w ++ 0#20) (functField w) 0 20).trans
      (extract_append_low (opcodeField w) (0#20))).symm
    simp [BitVec.extractLsb'_and]
  · refine Eq.trans ?_ (extract_append_low (opcodeField w ++ 0#20) (functField w)).symm
    simp [BitVec.extractLsb'_and, and_ones6, functField]

/-- The mask of every other row leaves the opcode (R93). -/
theorem mask_opcode (w : Word) : w &&& 0xFC000000#32 = opcodeField w ++ 0#26 := by
  apply word_eq_of_opcode_rest
  · refine Eq.trans ?_ ((extract_append_high (opcodeField w) (0#26) 0 6).trans (extract_whole _)).symm
    simp [BitVec.extractLsb'_and, and_ones6, opcodeField]
  · refine Eq.trans ?_ (extract_append_low (opcodeField w) (0#26)).symm
    simp [BitVec.extractLsb'_and]

/-! ## The opcode map -/

/-- What a legal map says, field by field where the source gives the numeral. -/
theorem OpcodeMap.legal_iff (m : OpcodeMap) :
    m.legal = true ↔ m.special = 0b000000#6 ∧ m.jr = 0b001000#6 ∧ m.opcodes.Nodup ∧ m.functs.Nodup := by
  simp only [OpcodeMap.legal, Bool.and_eq_true, decide_eq_true_eq, and_assoc]

/-- The map of R92 is legal. -/
theorem defaultOpcodes_legal : defaultOpcodes.legal = true := by decide

/-! ## Numbers in their fields -/

/-- A number in the signed 16-bit range is what its 16-bit field reads back as (R88). -/
theorem imm16_field_number {n : Int} (h : imm16Fits n = true) : (BitVec.ofInt 16 n).toInt = n := by
  simp only [imm16Fits, Bool.and_eq_true, decide_eq_true_eq] at h
  rw [BitVec.toInt_ofInt]
  exact Int.bmod_eq_of_le (by norm_num; omega) (by norm_num; omega)

theorem imm16Fits_field (v : BitVec 16) : imm16Fits v.toInt = true := by
  have h₁ := BitVec.le_toInt v
  have h₂ := BitVec.toInt_lt (x := v)
  simp only [imm16Fits, Bool.and_eq_true, decide_eq_true_eq]
  norm_num at h₁ h₂
  omega

theorem shamtFits_field (v : BitVec 5) : shamtFits v.toNat = true := by
  have := v.isLt
  simp only [shamtFits, Bool.and_eq_true, decide_eq_true_eq]
  omega

theorem targetFits_field (v : BitVec 26) : targetFits v.toNat = true := by
  simpa [targetFits] using v.isLt

theorem shamt_mod_of_fits {n : Nat} (h : shamtFits n = true) : n % 2 ^ 5 = n := by
  simp only [shamtFits, Bool.and_eq_true, decide_eq_true_eq] at h
  omega

theorem target_mod_of_fits {n : Nat} (h : targetFits n = true) : n % 2 ^ 26 = n :=
  Nat.mod_eq_of_lt (by simpa [targetFits] using h)

end Sys2Proof
end

