-- ==== Sys2Proof/Laws/Memory.lean ====
section
/-! SUPPORT. The laws of the data memory: read after write, other cells untouched, canonical form kept. -/

namespace Sys2Proof.Machine

variable (m : Memory) (a b lo : Nat) (v : Byte) (w : Word)

/-! ## Cells -/

theorem Memory.readByte_filter_ne (h : b ≠ a) :
    Memory.readByte (m.filter fun c => c.1 != a) b = m.readByte b := by
  induction m with
  | nil => rfl
  | cons c rest ih =>
    by_cases hc : c.1 = a
    · have : c.1 ≠ b := fun hb => h (hb.symm.trans hc)
      simpa [Memory.readByte, hc, Ne.symm h] using ih
    · by_cases hb : c.1 = b <;> simp_all [Memory.readByte]

theorem Memory.readByte_filter_same :
    Memory.readByte (m.filter fun c => c.1 != a) a = unlistedByte := by
  induction m with
  | nil => rfl
  | cons c rest ih => by_cases hc : c.1 = a <;> simp_all [Memory.readByte]

theorem Memory.readByte_insertCell_ne (c : Host.Cell) (h : b ≠ c.1) :
    Memory.readByte (Memory.insertCell c m) b = m.readByte b := by
  induction m with
  | nil => simp [Memory.insertCell, Memory.readByte, Ne.symm h]
  | cons d rest ih =>
    simp only [Memory.insertCell]
    split <;> simp [Memory.readByte, Ne.symm h, ih]

theorem Memory.readByte_insertCell_same (c : Host.Cell) (h : ∀ d ∈ m, d.1 ≠ c.1) :
    Memory.readByte (Memory.insertCell c m) c.1 = c.2 := by
  induction m with
  | nil => simp [Memory.insertCell, Memory.readByte]
  | cons d rest ih =>
    simp only [Memory.insertCell]
    split
    · simp [Memory.readByte]
    · simp only [Memory.readByte, if_neg (h d List.mem_cons_self)]
      exact ih fun e he => h e (List.mem_cons_of_mem _ he)

/-- A cell just written reads as the value. -/
@[simp] theorem Memory.readByte_writeByte_same : (m.writeByte a v).readByte a = v := by
  unfold Memory.writeByte
  split
  · next h => rw [Memory.readByte_filter_same, h]
  · exact Memory.readByte_insertCell_same _ (a, v) (by simp)

/-- A write leaves every other cell alone. -/
theorem Memory.readByte_writeByte_ne (h : b ≠ a) : (m.writeByte a v).readByte b = m.readByte b := by
  unfold Memory.writeByte
  split
  · exact Memory.readByte_filter_ne m a b h
  · rw [Memory.readByte_insertCell_ne _ _ (a, v) h, Memory.readByte_filter_ne m a b h]

/-! ## Canonical form -/

theorem Memory.mem_insertCell (c d : Host.Cell) : d ∈ Memory.insertCell c m ↔ d = c ∨ d ∈ m := by
  induction m with
  | nil => simp [Memory.insertCell]
  | cons e rest ih =>
    simp only [Memory.insertCell]
    split
    · simp
    · simp only [List.mem_cons, ih]
      tauto

theorem Memory.insertCell_sorted (c : Host.Cell) (h : m.Pairwise fun x y => x.1 < y.1)
    (hc : ∀ d ∈ m, d.1 ≠ c.1) : (Memory.insertCell c m).Pairwise fun x y => x.1 < y.1 := by
  induction m with
  | nil => simp [Memory.insertCell]
  | cons d rest ih =>
    obtain ⟨hd, hrest⟩ := List.pairwise_cons.1 h
    simp only [Memory.insertCell]
    split
    · next hlt =>
      refine List.pairwise_cons.2 ⟨fun e he => ?_, h⟩
      rcases List.mem_cons.1 he with rfl | he
      · exact hlt
      · exact hlt.trans (hd e he)
    · next hge =>
      have hne := hc d List.mem_cons_self
      refine List.pairwise_cons.2
        ⟨fun e he => ?_, ih hrest fun e he => hc e (List.mem_cons_of_mem _ he)⟩
      rcases (Memory.mem_insertCell rest c e).1 he with rfl | he
      · show d.1 < e.1
        omega
      · exact hd e he

/-- Writing a cell keeps the canonical form. -/
theorem Memory.wf_writeByte (h : m.wf) : (m.writeByte a v).wf := by
  obtain ⟨hsorted, hne⟩ := h
  have hsub : (m.filter fun c => c.1 != a).Pairwise fun x y => x.1 < y.1 := hsorted.filter _
  unfold Memory.writeByte
  split
  · exact ⟨hsub, fun c hc => hne c (List.mem_of_mem_filter hc)⟩
  · next hv =>
    refine ⟨Memory.insertCell_sorted _ (a, v) hsub (by simp), fun c hc => ?_⟩
    rcases (Memory.mem_insertCell _ _ _).1 hc with rfl | hc
    · exact hv
    · exact hne c (List.mem_of_mem_filter hc)

/-- The cells after a write are the old ones and the written one. -/
theorem Memory.mem_writeByte {c : Host.Cell} (h : c ∈ m.writeByte a v) : c ∈ m ∨ c.1 = a := by
  unfold Memory.writeByte at h
  split at h
  · exact .inl (List.mem_of_mem_filter h)
  · rcases (Memory.mem_insertCell _ _ _).1 h with rfl | h
    · exact .inr rfl
    · exact .inl (List.mem_of_mem_filter h)

/-! ## Words -/

/-- Writing a word keeps the canonical form. -/
theorem Memory.wf_writeWord (h : m.wf) : (m.writeWord lo w).wf :=
  Memory.wf_writeByte _ _ _ (Memory.wf_writeByte _ _ _ (Memory.wf_writeByte _ _ _
    (Memory.wf_writeByte _ _ _ h)))

/-- The cells after a word write are the old ones and the four written. -/
theorem Memory.mem_writeWord {c : Host.Cell} (h : c ∈ m.writeWord lo w) :
    c ∈ m ∨ (lo ≤ c.1 ∧ c.1 ≤ lo + 3) := by
  unfold Memory.writeWord at h
  rcases Memory.mem_writeByte _ _ _ h with h | h
  · rcases Memory.mem_writeByte _ _ _ h with h | h
    · rcases Memory.mem_writeByte _ _ _ h with h | h
      · rcases Memory.mem_writeByte _ _ _ h with h | h
        · exact .inl h
        · exact .inr (by omega)
      · exact .inr (by omega)
    · exact .inr (by omega)
  · exact .inr (by omega)

/-- A word write leaves every cell outside the word alone. -/
theorem Memory.readByte_writeWord_ne (h : b < lo ∨ lo + 3 < b) :
    (m.writeWord lo w).readByte b = m.readByte b := by
  unfold Memory.writeWord
  rw [Memory.readByte_writeByte_ne _ _ _ _ (by omega), Memory.readByte_writeByte_ne _ _ _ _ (by omega),
    Memory.readByte_writeByte_ne _ _ _ _ (by omega), Memory.readByte_writeByte_ne _ _ _ _ (by omega)]

theorem word_of_bytes :
    (w.extractLsb' 24 8 ++ w.extractLsb' 16 8 ++ w.extractLsb' 8 8 ++ w.extractLsb' 0 8 : Word) = w := by
  refine BitVec.eq_of_getLsbD_eq fun i hi => ?_
  simp only [BitVec.getLsbD_append, BitVec.getLsbD_extractLsb']
  split
  · simp_all
  · split
    · have : 8 + (i - 8) = i := by omega
      simp_all
    · split
      · have : 16 + (i - 8 - 8) = i := by omega
        simp_all
      · have : 24 + (i - 8 - 8 - 8) = i := by omega
        have : i - 8 - 8 - 8 < 8 := by omega
        simp_all

/-- A word just written reads back whole. -/
@[simp] theorem Memory.readWord_writeWord_same : (m.writeWord lo w).readWord lo = w := by
  unfold Memory.readWord Memory.writeWord
  rw [Memory.readByte_writeByte_same,
    Memory.readByte_writeByte_ne _ (lo + 3) (lo + 2) _ (by omega), Memory.readByte_writeByte_same,
    Memory.readByte_writeByte_ne _ (lo + 3) (lo + 1) _ (by omega),
    Memory.readByte_writeByte_ne _ (lo + 2) (lo + 1) _ (by omega), Memory.readByte_writeByte_same,
    Memory.readByte_writeByte_ne _ (lo + 3) lo _ (by omega),
    Memory.readByte_writeByte_ne _ (lo + 2) lo _ (by omega),
    Memory.readByte_writeByte_ne _ (lo + 1) lo _ (by omega), Memory.readByte_writeByte_same]
  exact word_of_bytes w

/-- A word write leaves every word that shares no cell with it alone. -/
theorem Memory.readWord_writeWord_disjoint (h : a + 3 < lo ∨ lo + 3 < a) :
    (m.writeWord lo w).readWord a = m.readWord a := by
  unfold Memory.readWord
  rw [Memory.readByte_writeWord_ne m a lo w (by omega), Memory.readByte_writeWord_ne m (a + 1) lo w (by omega),
    Memory.readByte_writeWord_ne m (a + 2) lo w (by omega), Memory.readByte_writeWord_ne m (a + 3) lo w (by omega)]

end Sys2Proof.Machine
end

