-- ==== Sys2Proof/Laws/State.lean ====
section
/-! SUPPORT. What each shared update does to each field, and the register file's laws. -/

namespace Sys2Proof.Machine

variable (s : State) (i k : Reg) (v : Word) (m : Memory) (e : Option Word)

/-! ## The PC update -/

@[simp] theorem advancePc_pc : (advancePc e s).pc = e.getD (s.pc + 4#32) := rfl
@[simp] theorem advancePc_regs : (advancePc e s).regs = s.regs := rfl
@[simp] theorem advancePc_imem : (advancePc e s).imem = s.imem := rfl
@[simp] theorem advancePc_dmem : (advancePc e s).dmem = s.dmem := rfl
@[simp] theorem advancePc_config : (advancePc e s).config = s.config := rfl
@[simp] theorem readReg_advancePc : readReg i (advancePc e s) = readReg i s := rfl

/-! ## The register write -/

@[simp] theorem writeReg_zero : writeReg 0 v s = s := rfl
@[simp] theorem writeReg_pc : (writeReg i v s).pc = s.pc := by unfold writeReg; split <;> rfl
@[simp] theorem writeReg_imem : (writeReg i v s).imem = s.imem := by unfold writeReg; split <;> rfl
@[simp] theorem writeReg_dmem : (writeReg i v s).dmem = s.dmem := by unfold writeReg; split <;> rfl

@[simp] theorem writeReg_config : (writeReg i v s).config = s.config := by unfold writeReg; split <;> rfl

@[simp] theorem readReg_zero : readReg 0 s = 0#32 := rfl

/-- A register just written reads as the value, register 0 as zero. -/
theorem readReg_writeReg_same : readReg i (writeReg i v s) = if i = 0 then 0#32 else v := by
  unfold readReg writeReg
  split <;> simp_all

/-- A write leaves every other register alone. -/
theorem readReg_writeReg_other (h : k ≠ i) : readReg k (writeReg i v s) = readReg k s := by
  unfold readReg writeReg
  split
  · rfl
  · split
    · rfl
    · have : (i : Nat) ≠ (k : Nat) := fun hv => h (Fin.ext hv.symm)
      simp [Vector.getElem_set_ne, this]

/-! ## The error of a register write -/

@[simp] theorem writeError_advancePc : writeError i (advancePc e s) = writeError i s := rfl

/-- A write raises nothing at registers other than 0, and nothing at all under `ignore` (R24). -/
theorem writeError_none : writeError i s = none ↔ i ≠ 0 ∨ s.config.zeroWrite = .ignore := by
  unfold writeError
  cases s.config.zeroWrite <;> simp

/-- A write raises one error, at register 0 under `fail` (U1). -/
theorem writeError_some {f : Fault} : writeError i s = some f ↔
    f = .zeroRegisterWrite ∧ i = 0 ∧ s.config.zeroWrite = .fail := by
  unfold writeError
  split <;> simp_all [eq_comm]

/-- A step that writes a register answers the next state exactly when the write raises nothing. -/
theorem commitReg_next {t : State} :
    commitReg i v e s = .next t ↔ writeError i s = none ∧ advancePc e (writeReg i v s) = t := by
  unfold commitReg
  cases writeError i s <;> simp [commit, raise]

/-- A step that writes a register ends in the error of the write and in no other. -/
theorem commitReg_fault {f : Fault} : commitReg i v e s = .fault f ↔ writeError i s = some f := by
  unfold commitReg
  cases writeError i s <;> simp [commit, raise]

theorem commitReg_ne_refused {r : Refusal} : commitReg i v e s ≠ .refused r := by
  unfold commitReg
  cases writeError i s <;> simp [commit, raise]

/-! ## The data memory update -/

@[simp] theorem withData_pc : ({ s with dmem := m } : State).pc = s.pc := rfl
@[simp] theorem withData_regs : ({ s with dmem := m } : State).regs = s.regs := rfl
@[simp] theorem withData_imem : ({ s with dmem := m } : State).imem = s.imem := rfl
@[simp] theorem withData_dmem : ({ s with dmem := m } : State).dmem = m := rfl
@[simp] theorem withData_config : ({ s with dmem := m } : State).config = s.config := rfl
@[simp] theorem readReg_withData : readReg i { s with dmem := m } = readReg i s := rfl

/-! ## The cell of register 0 -/

/-- No register write reaches the cell of register 0. -/
theorem writeReg_zeroCell : (writeReg i v s).regs[(0 : Reg)] = s.regs[(0 : Reg)] := by
  unfold writeReg
  split
  · rfl
  · next h =>
    have : (i : Nat) ≠ 0 := fun hv => h (Fin.ext hv)
    simp [Vector.getElem_set_ne, this]

end Sys2Proof.Machine
end

