-- ==== Sys2Proof/Laws/Step.lean ====
section
/-! SUPPORT. What a step can do, and what each primitive of a step answers. -/

namespace Sys2Proof.Machine

variable {s t : State} {f : Fault} {w v addr : Word}

/-- A load answers the word of a legal address (R57). -/
theorem memRead_ok_iff : memRead addr s = .ok v ↔ dataError s.config addr = none ∧ s.dmem.readWord (wordCells addr) = v := by
  unfold memRead
  cases dataError s.config addr <;> simp

/-- A load raises what the address tests raise (R57). -/
theorem memRead_error_iff : memRead addr s = .error f ↔ dataError s.config addr = some f := by
  unfold memRead
  cases dataError s.config addr <;> simp

/-- A store replaces the word of a legal address (R58). -/
theorem memWrite_ok_iff : memWrite addr v s = .ok t ↔
    dataError s.config addr = none ∧ { s with dmem := s.dmem.writeWord (wordCells addr) v } = t := by
  unfold memWrite
  cases dataError s.config addr <;> simp

/-- A store raises what the address tests raise (R58). -/
theorem memWrite_error_iff : memWrite addr v s = .error f ↔ dataError s.config addr = some f := by
  unfold memWrite
  cases dataError s.config addr <;> simp

/-- A fetch answers a word of the program (R53). -/
theorem iFetch_ok (h : iFetch addr s = .ok w) :
    addr.toNat % 4 = 0 ∧ s.config.baseInstr.toNat ≤ addr.toNat ∧
      s.imem[(addr.toNat - s.config.baseInstr.toNat) / 4]? = some w := by
  unfold iFetch at h
  split at h
  · cases h
  · split at h
    · cases h
    · split at h
      · next heq =>
        cases h
        exact ⟨by omega, by omega, heq⟩
      · cases h

/-- A step that answers a next state was a step of a finished machine, or ran the decoded instruction. -/
theorem step_next_cases (h : step s = .next t) :
    (s.finished = true ∧ t = s) ∨
      ∃ w i, s.finished = false ∧ iFetch s.pc s = .ok w ∧ decode s.config.opcodes w = .ok i ∧ exec i s = .next t := by
  unfold step runCycle at h
  cases hf : s.finished with
  | true => simp_all
  | false =>
    right
    rw [hf] at h
    simp only [Bool.false_eq_true, if_false] at h
    cases hw : iFetch s.pc s with
    | error f => simp [hw, raise] at h
    | ok w =>
      simp only [hw, executeWord] at h
      cases hd : decode s.config.opcodes w with
      | error e => simp [hd, raise] at h
      | ok i => exact ⟨w, i, rfl, rfl, hd, by simpa [hd] using h⟩

/-- Where `commit` ends a meaning, the next state is known. -/
@[simp] theorem commit_eq_next {e : Option Word} : commit e s = .next t ↔ advancePc e s = t := by
  simp [commit]

theorem commit_ne_fault {e : Option Word} : commit e s ≠ .fault f := by simp [commit]

theorem raise_ne_next : raise f ≠ .next t := by simp [raise]

/-- The host's placed word is fetched and executed by the very next step (log 8). -/
theorem step_withFetchWord (s : State) (hc : s.config.legal = true) (nbits n : Nat) :
    step (s.withFetchWord nbits n) =
      executeWord (BitVec.ofNat 32 (n % 2 ^ nbits)) (s.withFetchWord nbits n) := by
  simp only [Config.legal, Bool.and_eq_true, decide_eq_true_eq] at hc
  obtain ⟨⟨⟨⟨⟨⟨⟨hbase, hfits⟩, -⟩, hpos⟩, -⟩, -⟩, -⟩, -⟩ := hc
  have hk : fetchSlot s < s.config.imemWords := by
    unfold fetchSlot
    dsimp only
    split
    · next h => exact h.2.2
    · omega
  set u := s.withFetchWord nbits n with hu
  have hconfig : u.config = s.config := rfl
  have hpc : u.pc.toNat = s.config.baseInstr.toNat + 4 * fetchSlot s := by
    show (s.config.baseInstr + BitVec.ofNat 32 (4 * fetchSlot s)).toNat = _
    rw [BitVec.toNat_add, BitVec.toNat_ofNat]
    omega
  have hget : u.imem[fetchSlot s]? = some (BitVec.ofNat 32 (n % 2 ^ nbits)) := by
    show (placeWord s.imem (fetchSlot s) _)[fetchSlot s]? = _
    unfold placeWord
    rw [List.getElem?_set_self]
    simp
    omega
  have hlen : fetchSlot s < u.imem.length := (List.getElem?_eq_some_iff.1 hget).1
  have hfin : u.finished = false := by
    simp only [State.finished, State.endAddress, State.instructionCount, hconfig, decide_eq_false_iff_not]
    omega
  have hfetch : iFetch u.pc u = .ok (BitVec.ofNat 32 (n % 2 ^ nbits)) := by
    unfold iFetch
    have hidx : (u.pc.toNat - u.config.baseInstr.toNat) / 4 = fetchSlot s := by
      rw [hconfig]
      omega
    rw [hidx, hget, if_neg (by omega), if_neg (by rw [hconfig]; omega)]
  simp [step, runCycle, hfin, hfetch]

end Sys2Proof.Machine
end

