-- ==== Sys2Proof/Laws/Exec.lean ====
section
/-! SUPPORT. What the meanings can answer: every instruction completes but for the error of its register write
(`ZERO_WRITE = fail`) and, for `lw` and `sw`, of its address. Cite these instead of unfolding `exec`. -/

namespace Sys2Proof.Machine

/-! ## The arms of `exec` -/

@[simp] theorem exec_sll (rd rt : Reg) (shamt : Nat) (s : State) : exec (.sll rd rt shamt) s = execSll rd rt shamt s := rfl
@[simp] theorem exec_srl (rd rt : Reg) (shamt : Nat) (s : State) : exec (.srl rd rt shamt) s = execSrl rd rt shamt s := rfl
@[simp] theorem exec_jr (rs : Reg) (s : State) : exec (.jr rs) s = execJr rs s := rfl
@[simp] theorem exec_add (rd rs rt : Reg) (s : State) : exec (.add rd rs rt) s = execAdd rd rs rt s := rfl
@[simp] theorem exec_sub (rd rs rt : Reg) (s : State) : exec (.sub rd rs rt) s = execSub rd rs rt s := rfl
@[simp] theorem exec_and (rd rs rt : Reg) (s : State) : exec (.and rd rs rt) s = execAnd rd rs rt s := rfl
@[simp] theorem exec_or (rd rs rt : Reg) (s : State) : exec (.or rd rs rt) s = execOr rd rs rt s := rfl
@[simp] theorem exec_slt (rd rs rt : Reg) (s : State) : exec (.slt rd rs rt) s = execSlt rd rs rt s := rfl
@[simp] theorem exec_j (target : Nat) (s : State) : exec (.j target) s = execJ target s := rfl
@[simp] theorem exec_jal (target : Nat) (s : State) : exec (.jal target) s = execJal target s := rfl
@[simp] theorem exec_beq (rs rt : Reg) (disp : Int) (s : State) : exec (.beq rs rt disp) s = execBeq rs rt disp s := rfl
@[simp] theorem exec_bne (rs rt : Reg) (disp : Int) (s : State) : exec (.bne rs rt disp) s = execBne rs rt disp s := rfl
@[simp] theorem exec_addi (rt rs : Reg) (imm : Int) (s : State) : exec (.addi rt rs imm) s = execAddi rt rs imm s := rfl
@[simp] theorem exec_lw (rt : Reg) (offset : Int) (rs : Reg) (s : State) : exec (.lw rt offset rs) s = execLw rt offset rs s := rfl
@[simp] theorem exec_sw (rt : Reg) (offset : Int) (rs : Reg) (s : State) : exec (.sw rt offset rs) s = execSw rt offset rs s := rfl

variable {s t : State} {f : Fault} {rt rs : Reg} {offset : Int}

/-! ## Loads and stores by the verdict on their address -/

theorem execLw_of_legal (h : dataError s.config (effectiveAddress offset rs s) = none) :
    execLw rt offset rs s =
      commitReg rt (s.dmem.readWord (wordCells (effectiveAddress offset rs s))) none s := by
  rw [execLw, memRead, h]

theorem execLw_of_error (h : dataError s.config (effectiveAddress offset rs s) = some f) :
    execLw rt offset rs s = .fault f := by
  rw [execLw, memRead, h]; rfl

theorem execSw_of_legal (h : dataError s.config (effectiveAddress offset rs s) = none) :
    execSw rt offset rs s = commit none
      { s with dmem := s.dmem.writeWord (wordCells (effectiveAddress offset rs s)) (readReg rt s) } := by
  rw [execSw, memWrite, h]

theorem execSw_of_error (h : dataError s.config (effectiveAddress offset rs s) = some f) :
    execSw rt offset rs s = .fault f := by
  rw [execSw, memWrite, h]; rfl

/-- A load that answers a next state had a legal address and an allowed register write. -/
theorem execLw_next (h : execLw rt offset rs s = .next t) :
    dataError s.config (effectiveAddress offset rs s) = none ∧ writeError rt s = none ∧
      t = advancePc none (writeReg rt (s.dmem.readWord (wordCells (effectiveAddress offset rs s))) s) := by
  cases hd : dataError s.config (effectiveAddress offset rs s) with
  | none => rw [execLw_of_legal hd, commitReg_next] at h; exact ⟨rfl, h.1, h.2.symm⟩
  | some f => rw [execLw_of_error hd] at h; cases h

/-- A store that answers a next state had a legal address. -/
theorem execSw_next (h : execSw rt offset rs s = .next t) :
    dataError s.config (effectiveAddress offset rs s) = none ∧
      t = advancePc none
        { s with dmem := s.dmem.writeWord (wordCells (effectiveAddress offset rs s)) (readReg rt s) } := by
  cases hd : dataError s.config (effectiveAddress offset rs s) with
  | none => rw [execSw_of_legal hd, commit_eq_next] at h; exact ⟨rfl, h.symm⟩
  | some f => rw [execSw_of_error hd] at h; cases h

/-! ## The data address tests -/

section Address
variable {c : Config} {addr : Word}

/-- The tests raise nothing but the two data errors, with the address. -/
theorem dataError_cases (h : dataError c addr = some f) :
    (f = .dataMisaligned addr ∧ dataDistance c addr % 4 ≠ 0) ∨
      (f = .dataOutOfRange addr ∧ dataDistance c addr % 4 = 0 ∧ c.dmemWords ≤ dataDistance c addr / 4) := by
  unfold dataError at h
  split at h
  · next hm => exact .inl ⟨(Option.some.inj h).symm, hm⟩
  · next hm =>
    split at h
    · next hr => exact .inr ⟨(Option.some.inj h).symm, Decidable.not_not.1 hm, hr⟩
    · cases h

/-- A legal address is on the stride and in range. -/
theorem dataError_none :
    dataError c addr = none ↔ dataDistance c addr % 4 = 0 ∧ dataDistance c addr / 4 < c.dmemWords := by
  unfold dataError
  split
  · next hm => exact ⟨nofun, fun h => absurd h.1 hm⟩
  · next hm =>
    split
    · next hr => exact ⟨nofun, fun h => absurd h.2 (Nat.not_lt.2 hr)⟩
    · next hr => exact ⟨fun _ => ⟨Decidable.not_not.1 hm, Nat.lt_of_not_le hr⟩, fun _ => rfl⟩

theorem legal_baseData (h : c.legal = true) : c.baseData = 0xFFFFFFFF#32 := by
  simp only [Config.legal, Bool.and_eq_true, decide_eq_true_eq] at h
  exact h.1.1.1.1.1.2

theorem legal_dmemWords (h : c.legal = true) : 1 ≤ c.dmemWords ∧ c.dmemWords ≤ 262144 := by
  simp only [Config.legal, Bool.and_eq_true, decide_eq_true_eq] at h
  exact ⟨h.1.1.2, h.1.2⟩

theorem legal_baseInstr (h : c.legal = true) : c.baseInstr.toNat % 4 = 0 := by
  simp only [Config.legal, Bool.and_eq_true, decide_eq_true_eq] at h
  exact h.1.1.1.1.1.1.1

theorem legal_opcodes (h : c.legal = true) : c.opcodes.legal = true := by
  simp only [Config.legal, Bool.and_eq_true] at h
  exact h.2

/-- The distance of an address below the base, `BASE_DATA` being the largest 32-bit number. -/
theorem dataDistance_eq (h : c.legal = true) (addr : Word) : dataDistance c addr = 4294967295 - addr.toNat := by
  have := addr.isLt
  unfold dataDistance
  rw [legal_baseData h]
  simp only [BitVec.toNat_ofNat]
  split <;> omega

end Address

/-! ## All meanings together -/

/-- An error of an instruction is an error of a load's or store's address, or, that being legal, of its register write. -/
theorem exec_fault {i : Instr} (h : exec i s = .fault f) :
    (∃ rt offset rs, (i = .lw rt offset rs ∨ i = .sw rt offset rs) ∧
      dataError s.config (effectiveAddress offset rs s) = some f) ∨
    (f = .zeroRegisterWrite ∧ s.config.zeroWrite = .fail ∧ (0 : Reg) ∈ i.writes ∧
      ∀ rt offset rs, i = .lw rt offset rs → dataError s.config (effectiveAddress offset rs s) = none) := by
  cases i with
  | lw rt offset rs =>
    rw [exec_lw] at h
    cases hd : dataError s.config (effectiveAddress offset rs s) with
    | none =>
      rw [execLw_of_legal hd, commitReg_fault, writeError_some] at h
      obtain ⟨hf, rfl, hz⟩ := h
      exact .inr ⟨hf, hz, List.mem_singleton.2 rfl, by rintro _ _ _ ⟨⟩; exact hd⟩
    | some g => rw [execLw_of_error hd] at h; cases h; exact .inl ⟨rt, offset, rs, .inl rfl, hd⟩
  | sw rt offset rs =>
    rw [exec_sw] at h
    cases hd : dataError s.config (effectiveAddress offset rs s) with
    | none => rw [execSw_of_legal hd] at h; exact absurd h commit_ne_fault
    | some g => rw [execSw_of_error hd] at h; cases h; exact .inl ⟨rt, offset, rs, .inr rfl, hd⟩
  | _ =>
    first
    | exact absurd h commit_ne_fault
    | obtain ⟨hf, rfl, hz⟩ := (writeError_some ..).1 ((commitReg_fault ..).1 h)
      exact .inr ⟨hf, hz, List.mem_singleton.2 rfl, nofun⟩

/-- No meaning refuses. -/
theorem exec_ne_refused {i : Instr} {r : Refusal} : exec i s ≠ .refused r := by
  cases i with
  | lw rt offset rs =>
    rw [exec_lw]
    cases hd : dataError s.config (effectiveAddress offset rs s) with
    | none => rw [execLw_of_legal hd]; exact fun h => commitReg_ne_refused _ _ _ _ h
    | some g => rw [execLw_of_error hd]; exact nofun
  | sw rt offset rs =>
    rw [exec_sw]
    cases hd : dataError s.config (effectiveAddress offset rs s) with
    | none => rw [execSw_of_legal hd]; exact nofun
    | some g => rw [execSw_of_error hd]; exact nofun
  | _ => first | exact fun h => commitReg_ne_refused _ _ _ _ h | exact nofun

/-- No meaning changes the program or the configuration. -/
theorem exec_program {i : Instr} (h : exec i s = .next t) : t.imem = s.imem ∧ t.config = s.config := by
  cases i with
  | lw rt offset rs => rw [exec_lw] at h; obtain ⟨-, -, rfl⟩ := execLw_next h; simp
  | sw rt offset rs => rw [exec_sw] at h; obtain ⟨-, rfl⟩ := execSw_next h; exact ⟨rfl, rfl⟩
  | _ =>
    first
    | exact Host.Outcome.next.inj h ▸ ⟨rfl, rfl⟩
    | exact ((commitReg_next ..).1 h).2 ▸ by simp

/-- Where a step's error comes from: the fetch, the decoder or the meaning, of a machine that is not finished. -/
theorem step_fault_cases (h : step s = .fault f) :
    s.finished = false ∧
      (iFetch s.pc s = .error f ∨
        ∃ w, iFetch s.pc s = .ok w ∧
          ((∃ e, decode s.config.opcodes w = .error e) ∧ f = .unsupportedInstruction w ∨
            ∃ i, decode s.config.opcodes w = .ok i ∧ exec i s = .fault f)) := by
  unfold step runCycle at h
  cases hf : s.finished with
  | true => rw [hf] at h; simp at h
  | false =>
    rw [hf] at h
    simp only [Bool.false_eq_true, if_false] at h
    refine ⟨rfl, ?_⟩
    cases hw : iFetch s.pc s with
    | error g =>
      rw [hw] at h
      exact .inl (congrArg Except.error (Host.Outcome.fault.inj h))
    | ok w =>
      rw [hw] at h
      simp only [executeWord] at h
      refine .inr ⟨w, rfl, ?_⟩
      cases hd : decode s.config.opcodes w with
      | error e =>
        rw [hd] at h
        exact .inl ⟨⟨e, rfl⟩, (Host.Outcome.fault.inj h).symm⟩
      | ok i =>
        rw [hd] at h
        exact .inr ⟨i, rfl, h⟩

end Sys2Proof.Machine
end

