-- ==== Sys2Proof/Laws/PerInstr.lean ====
section
/-! SUPPORT. Statements made of every instruction as syntax. -/

namespace Sys2Proof

/-- With any opcode map, the word of an instruction lies in the row of R93 that has its mnemonic. -/
def Laws.EncodesInRow.Statement (i : Instr) : Prop :=
  ∀ m : OpcodeMap, ∃ p ∈ patternTable m, p.mnemonic = i.mnemonic ∧ encode m i &&& p.mask = p.pattern

/-- An R-type word lies in the row of its funct. -/
theorem encodeRType_in_row {m : OpcodeMap} {mnemonic : String} {funct : BitVec 6} {unused : Word}
    (h : rtypeRow m mnemonic funct unused ∈ patternTable m) (rs rt rd : Reg) (shamt : Nat) :
    ∃ p ∈ patternTable m, p.mnemonic = mnemonic ∧ encodeRType m rs rt rd shamt funct &&& p.mask = p.pattern :=
  ⟨_, h, rfl, (mask_rtype _).trans (by rw [opcodeField_encodeRType, functField_encodeRType]; rfl)⟩

/-- A word of another format lies in the row of its opcode. -/
theorem word_in_opcode_row {m : OpcodeMap} {mnemonic : String} {opcode : BitVec 6}
    (h : opcodeRow mnemonic opcode ∈ patternTable m) {w : Word} (hop : opcodeField w = opcode) :
    ∃ p ∈ patternTable m, p.mnemonic = mnemonic ∧ w &&& p.mask = p.pattern :=
  ⟨_, h, rfl, (mask_opcode w).trans (by rw [hop]; rfl)⟩

theorem Laws.EncodesInRow.sll (rd rt : Reg) (shamt : Nat) : Laws.EncodesInRow.Statement (.sll rd rt shamt) :=
  fun _ => encodeRType_in_row (List.mem_of_getElem? (i := 0) rfl) _ _ _ _

theorem Laws.EncodesInRow.srl (rd rt : Reg) (shamt : Nat) : Laws.EncodesInRow.Statement (.srl rd rt shamt) :=
  fun _ => encodeRType_in_row (List.mem_of_getElem? (i := 1) rfl) _ _ _ _

theorem Laws.EncodesInRow.jr (rs : Reg) : Laws.EncodesInRow.Statement (.jr rs) :=
  fun _ => encodeRType_in_row (List.mem_of_getElem? (i := 2) rfl) _ _ _ _

theorem Laws.EncodesInRow.add (rd rs rt : Reg) : Laws.EncodesInRow.Statement (.add rd rs rt) :=
  fun _ => encodeRType_in_row (List.mem_of_getElem? (i := 3) rfl) _ _ _ _

theorem Laws.EncodesInRow.sub (rd rs rt : Reg) : Laws.EncodesInRow.Statement (.sub rd rs rt) :=
  fun _ => encodeRType_in_row (List.mem_of_getElem? (i := 4) rfl) _ _ _ _

theorem Laws.EncodesInRow.and (rd rs rt : Reg) : Laws.EncodesInRow.Statement (.and rd rs rt) :=
  fun _ => encodeRType_in_row (List.mem_of_getElem? (i := 5) rfl) _ _ _ _

theorem Laws.EncodesInRow.or (rd rs rt : Reg) : Laws.EncodesInRow.Statement (.or rd rs rt) :=
  fun _ => encodeRType_in_row (List.mem_of_getElem? (i := 6) rfl) _ _ _ _

theorem Laws.EncodesInRow.slt (rd rs rt : Reg) : Laws.EncodesInRow.Statement (.slt rd rs rt) :=
  fun _ => encodeRType_in_row (List.mem_of_getElem? (i := 7) rfl) _ _ _ _

theorem Laws.EncodesInRow.j (target : Nat) : Laws.EncodesInRow.Statement (.j target) :=
  fun _ => word_in_opcode_row (List.mem_of_getElem? (i := 8) rfl) (opcodeField_encodeJType ..)

theorem Laws.EncodesInRow.jal (target : Nat) : Laws.EncodesInRow.Statement (.jal target) :=
  fun _ => word_in_opcode_row (List.mem_of_getElem? (i := 9) rfl) (opcodeField_encodeJType ..)

theorem Laws.EncodesInRow.beq (rs rt : Reg) (disp : Int) : Laws.EncodesInRow.Statement (.beq rs rt disp) :=
  fun _ => word_in_opcode_row (List.mem_of_getElem? (i := 10) rfl) (opcodeField_encodeIType ..)

theorem Laws.EncodesInRow.bne (rs rt : Reg) (disp : Int) : Laws.EncodesInRow.Statement (.bne rs rt disp) :=
  fun _ => word_in_opcode_row (List.mem_of_getElem? (i := 11) rfl) (opcodeField_encodeIType ..)

theorem Laws.EncodesInRow.addi (rt rs : Reg) (imm : Int) : Laws.EncodesInRow.Statement (.addi rt rs imm) :=
  fun _ => word_in_opcode_row (List.mem_of_getElem? (i := 12) rfl) (opcodeField_encodeIType ..)

theorem Laws.EncodesInRow.lw (rt : Reg) (offset : Int) (rs : Reg) : Laws.EncodesInRow.Statement (.lw rt offset rs) :=
  fun _ => word_in_opcode_row (List.mem_of_getElem? (i := 13) rfl) (opcodeField_encodeIType ..)

theorem Laws.EncodesInRow.sw (rt : Reg) (offset : Int) (rs : Reg) : Laws.EncodesInRow.Statement (.sw rt offset rs) :=
  fun _ => word_in_opcode_row (List.mem_of_getElem? (i := 14) rfl) (opcodeField_encodeIType ..)

end Sys2Proof
end

