-- ==== Sys2Proof/Tests/Slice0.lean ====
section
/-! SUPPORT. Tests, each about at most one step, with expected results from spec/95_test_vectors.md (S1 to S10, V1 to V154) or
worked out by hand from the rule named; and a witness for every statement that has hypotheses. -/

open Sys2Proof Sys2Proof.Machine

namespace Sys2Proof.Tests

/-! ## Small states -/

/-- The reset state with some registers set. -/
def regsAt (rs : List (Reg × Word)) : State :=
  rs.foldl (fun s x => writeReg x.1 x.2 s) State.reset

/-- The reset state with some registers set and one word as the program. -/
def one (w : Word) (rs : List (Reg × Word)) : State := { regsAt rs with imem := [w] }

/-- The same with the PC at `pc` in a program of `n` words, all of them `w`. -/
def inside (n : Nat) (pc w : Word) (rs : List (Reg × Word)) : State :=
  { regsAt rs with imem := List.replicate n w, pc := pc }

/-- The same state on a machine of another configuration. -/
def on (c : Config) (s : State) : State := { s with config := c }

/-- `ZERO_WRITE = fail`. -/
abbrev strictZero : Config := { defaultConfig with zeroWrite := .fail }

/-- The opcode map with the numerals of `lw` and `sw` exchanged: another legal one. -/
abbrev exchanged : OpcodeMap := { defaultOpcodes with lw := 0b101011#6, sw := 0b100011#6 }

/-- The smallest capacities. -/
abbrev smallest : Config := { defaultConfig with imemWords := 1, dmemWords := 1 }

/-- One instruction word, at the top of the address space. -/
abbrev top : Config := { defaultConfig with baseInstr := 0xFFFFFFFC#32, imemWords := 1 }

/-- A state with one data word set. -/
def withData (addr v : Word) (s : State) : State :=
  { s with dmem := s.dmem.writeWord (wordCells addr) v }

/-- The PC and one register after a step. -/
def after (r : Reg) (s : State) : Option (Word × Word) :=
  match step s with
  | .next t => some (t.pc, readReg r t)
  | .fault _ => none
  | .refused _ => none

/-- The state after a step. -/
def stateAfter (s : State) : Option State :=
  match step s with
  | .next t => some t
  | .fault _ => none
  | .refused _ => none

/-- One data slot after a step. -/
def slotAfter (k : Nat) (s : State) : Option Word :=
  match step s with
  | .next t => some (slotWord k t)
  | .fault _ => none
  | .refused _ => none

/-- The error of an outcome. -/
def faultOf (o : Host.Outcome State Fault Refusal) : Option Fault :=
  match o with
  | .next _ => none
  | .fault f => some f
  | .refused _ => none

/-- The error of a step. -/
def errorOf (s : State) : Option Fault := faultOf (step s)

/-! ## Well-formedness refuses what does not fit -/

theorem test_wf_shift_amount : (Instr.sll 8 9 32).wf = false ∧ (Instr.srl 8 9 32).wf = false ∧
    (Instr.sll 8 9 31).wf = true ∧ (Instr.srl 8 9 31).wf = true ∧ shamtFits (-1) = false := by decide
theorem test_wf_addi_immediate : (Instr.addi 8 0 32768).wf = false ∧ (Instr.addi 8 0 (-32769)).wf = false ∧
    (Instr.addi 8 0 32767).wf = true ∧ (Instr.addi 8 0 (-32768)).wf = true := by decide
theorem test_wf_offset : (Instr.lw 8 32768 29).wf = false ∧ (Instr.sw 8 (-32769) 29).wf = false ∧
    (Instr.lw 8 (-32768) 29).wf = true ∧ (Instr.sw 8 32767 29).wf = true := by decide
theorem test_wf_displacement : (Instr.beq 8 9 32768).wf = false ∧ (Instr.bne 8 9 (-32769)).wf = false ∧
    (Instr.beq 8 9 32767).wf = true ∧ (Instr.bne 8 9 (-32768)).wf = true := by decide
theorem test_wf_jump_field : (Instr.j 67108864).wf = false ∧ (Instr.jal 67108864).wf = false ∧
    (Instr.j 67108863).wf = true ∧ (Instr.jal 67108863).wf = true := by decide
theorem test_program_fits : programFits defaultConfig (List.replicate 129 0#32) = false ∧
    programFits defaultConfig (List.replicate 128 0#32) = true := by simp [programFits, defaultConfig]
/-- R7: the ends of the range of each capacity, and what the other parameters must be. -/
theorem test_config_legal : defaultConfig.legal = true ∧ smallest.legal = true ∧
    (Config.legal { defaultConfig with imemWords := 262144, dmemWords := 262144, zeroWrite := .fail } = true) ∧
    (Config.legal { defaultConfig with imemWords := 262145 } = false) ∧ (Config.legal { defaultConfig with dmemWords := 0 } = false) ∧
    (Config.legal { defaultConfig with baseInstr := 0x00400002#32 } = false) ∧
    (Config.legal { defaultConfig with baseData := 0xFFFFFFFB#32 } = false) := by decide
/-- R92: legal maps have the two numerals of the source and tell the instructions apart. -/
theorem test_opcode_map_legal : defaultOpcodes.legal = true ∧ exchanged.legal = true ∧
    (OpcodeMap.legal { defaultOpcodes with lw := 0b101011#6 } = false) ∧
    (OpcodeMap.legal { defaultOpcodes with sub := 0b100000#6 } = false) ∧
    (OpcodeMap.legal { defaultOpcodes with jr := 0b001001#6 } = false) ∧
    (Config.legal { defaultConfig with opcodes := { defaultOpcodes with special := 0b111111#6 } } = false) := by decide

/-! ## Decoding: each constructor from a word written field by field (R82 to R84, R92) -/

theorem test_decode_sll : decode defaultOpcodes 0b000000_00000_01001_01000_11111_000000#32 = .ok (.sll 8 9 31) := by decide
theorem test_decode_srl : decode defaultOpcodes 0b000000_00000_01001_01000_00001_000010#32 = .ok (.srl 8 9 1) := by decide
theorem test_decode_jr : decode defaultOpcodes 0b000000_11111_00000_00000_00000_001000#32 = .ok (.jr 31) := by decide
theorem test_decode_add : decode defaultOpcodes 0b000000_01000_01001_01010_00000_100000#32 = .ok (.add 10 8 9) := by decide
theorem test_decode_sub : decode defaultOpcodes 0b000000_10001_10010_10000_00000_100010#32 = .ok (.sub 16 17 18) := by decide
theorem test_decode_and : decode defaultOpcodes 0b000000_00101_00110_00100_00000_100100#32 = .ok (.and 4 5 6) := by decide
theorem test_decode_or : decode defaultOpcodes 0b000000_00011_00001_00010_00000_100101#32 = .ok (.or 2 3 1) := by decide
theorem test_decode_slt : decode defaultOpcodes 0b000000_11101_00000_01000_00000_101010#32 = .ok (.slt 8 29 0) := by decide
theorem test_decode_j : decode defaultOpcodes 0b000010_00000100000000000000000100#32 = .ok (.j 0x100004) := by decide
theorem test_decode_jal : decode defaultOpcodes 0b000011_00000100000000000000000101#32 = .ok (.jal 0x100005) := by decide
theorem test_decode_beq : decode defaultOpcodes 0b000100_01000_01001_1111111111111101#32 = .ok (.beq 8 9 (-3)) := by decide
theorem test_decode_bne : decode defaultOpcodes 0b000101_01000_01001_0000000000000010#32 = .ok (.bne 8 9 2) := by decide
theorem test_decode_addi : decode defaultOpcodes 0b001000_11101_01000_1000000000000000#32 = .ok (.addi 8 29 (-32768)) := by decide
theorem test_decode_lw : decode defaultOpcodes 0b100011_01001_01000_1111111111111100#32 = .ok (.lw 8 (-4) 9) := by decide
theorem test_decode_sw : decode defaultOpcodes 0b101011_11101_01000_0000000111111100#32 = .ok (.sw 8 508 29) := by decide

/-- V71, V75. -/
theorem test_decode_rejects : decode defaultOpcodes 0x0000000C#32 = .error (.unsupportedFunct 0x0C#6) ∧
    decode defaultOpcodes 0x04000000#32 = .error (.unsupportedOpcode 0x01#6) := by decide
/-- The host's numbering is that of the word; bits above `nbits` are zero. -/
theorem test_table_word : decodeTableWord 32 0x01095020 = some (.add 10 8 9) ∧
    decodeTableWord 6 0x3F = none := by decide

/-! ## One step of each instruction, from a program of one word -/

/-- V17: the bits shifted out are lost. -/
theorem test_sll : after 8 (one 0x00094040#32 [(9, 0xC0000001#32)]) = some (0x00400004#32, 0x80000002#32) := by decide
/-- V81: the field `rs` is not looked at. -/
theorem test_sll_unused : after 8 (one 0x00E94100#32 [(9, 2#32)]) = some (0x00400004#32, 0x20#32) := by decide
/-- V21: zeros enter. -/
theorem test_srl : after 8 (one 0x00094042#32 [(9, 0xFFFFFFFF#32)]) = some (0x00400004#32, 0x7FFFFFFF#32) := by decide
/-- V20. -/
theorem test_srl_31 : after 8 (one 0x000947C2#32 [(9, 0x80000000#32)]) = some (0x00400004#32, 1#32) := by decide
/-- V62: a misaligned target is taken. -/
theorem test_jr : after 31 (one 0x03E00008#32 [(31, 0x00400006#32)]) = some (0x00400006#32, 0x00400006#32) := by decide
/-- V82: `rd` is not written. -/
theorem test_jr_unused : after 10 (one 0x03E950C8#32 [(10, 3#32), (31, 0x00400000#32)]) =
    some (0x00400000#32, 3#32) := by decide
/-- V1: no overflow trap. -/
theorem test_add : after 10 (one 0x01095020#32 [(8, 0x7FFFFFFF#32), (9, 1#32)]) =
    some (0x00400004#32, 0x80000000#32) := by decide
/-- V3: source and destination the same. -/
theorem test_add_same : after 8 (one 0x01084020#32 [(8, 5#32)]) = some (0x00400004#32, 10#32) := by decide
/-- V8: the order of the operands. -/
theorem test_sub : after 16 (one 0x02328022#32 [(17, 10#32), (18, 3#32)]) = some (0x00400004#32, 7#32) := by decide
/-- V6. -/
theorem test_sub_wraps : after 8 (one 0x01094022#32 [(8, 0x80000000#32), (9, 1#32)]) =
    some (0x00400004#32, 0x7FFFFFFF#32) := by decide
/-- V9. -/
theorem test_and : after 4 (one 0x00A62024#32 [(5, 0x0000FF0F#32), (6, 0x00F0F0FF#32)]) =
    some (0x00400004#32, 0x0000F00F#32) := by decide
/-- V10. -/
theorem test_or : after 2 (one 0x00611025#32 [(3, 0xF0F00000#32), (1, 0x0000000F#32)]) =
    some (0x00400004#32, 0xF0F0000F#32) := by decide
/-- V13. -/
theorem test_slt : after 8 (one 0x0109402A#32 [(8, 0x80000000#32), (9, 0x7FFFFFFF#32)]) =
    some (0x00400004#32, 1#32) := by decide
/-- V12. -/
theorem test_slt_signed : after 8 (one 0x0109402A#32 [(8, 0x7FFFFFFF#32), (9, 0x80000000#32)]) =
    some (0x00400004#32, 0#32) := by decide
/-- V58: the field all ones. -/
theorem test_j : after 31 (one 0x0BFFFFFF#32 []) = some (0x0FFFFFFC#32, 0#32) := by decide
/-- R175: the upper four bits are those of the jump's own address, by hand. -/
theorem test_j_upper_bits : (exec (.j 1) { State.reset with pc := 0xFFFFFFFC#32 }) =
    .next { State.reset with pc := 0xF0000004#32 } := by rfl
/-- V60: the link is `pc + 4`. -/
theorem test_jal : after 31 (inside 6 0x00400004#32 0x0C100005#32 []) = some (0x00400014#32, 0x00400008#32) := by decide
/-- V59. -/
theorem test_jal_back : after 31 (inside 8 0x0040001C#32 0x0C100000#32 []) =
    some (0x00400000#32, 0x00400020#32) := by decide
/-- V50, V51. -/
theorem test_beq : after 8 (inside 8 0x00400008#32 0x11090002#32 [(8, 1#32), (9, 1#32)]) = some (0x00400014#32, 1#32) ∧
    after 8 (inside 8 0x00400008#32 0x11090002#32 [(8, 1#32), (9, 2#32)]) = some (0x0040000C#32, 1#32) := by decide
/-- V54: a branch to itself leaves the state as it was. -/
theorem test_beq_hang : step (one 0x1000FFFF#32 []) = .next (one 0x1000FFFF#32 []) := by rfl
/-- V52, V53. -/
theorem test_bne : after 8 (inside 8 0x00400008#32 0x15090002#32 [(8, 1#32), (9, 2#32)]) = some (0x00400014#32, 1#32) ∧
    after 8 (inside 8 0x00400008#32 0x15090002#32 [(8, 1#32), (9, 1#32)]) = some (0x0040000C#32, 1#32) := by decide
/-- S2, step 4: a backward displacement. -/
theorem test_bne_back : after 8 (inside 5 0x0040000C#32 0x1509FFFE#32 [(8, 10#32), (9, 20#32)]) =
    some (0x00400008#32, 10#32) := by decide
/-- V30: the immediate is sign-extended. -/
theorem test_addi : after 8 (one 0x2108FFFF#32 []) = some (0x00400004#32, 0xFFFFFFFF#32) := by decide
/-- V33, S7: a write to `$zero` is discarded. -/
theorem test_addi_zero : step (one 0x2000FFFF#32 []) = .next { one 0x2000FFFF#32 [] with pc := 0x00400004#32 } := by rfl
/-- V35: the offset is subtracted. -/
theorem test_lw : after 8 (withData 0xFFFFFFFB#32 0xDEADBEEF#32 (one 0x8FA80004#32 [])) =
    some (0x00400004#32, 0xDEADBEEF#32) := by decide
/-- V44: the base is read before the write. -/
theorem test_lw_base : after 29 (withData 0xFFFFFFFF#32 0xFFFFFFFB#32 (one 0x8FBD0000#32 [])) =
    some (0x00400004#32, 0xFFFFFFFB#32) := by decide
/-- V36: the last slot; slot 126 keeps its zero. -/
theorem test_sw : slotAfter 127 (one 0xAFA801FC#32 [(8, 0x12345678#32)]) = some 0x12345678#32 ∧
    slotAfter 126 (one 0xAFA801FC#32 [(8, 0x12345678#32)]) = some 0#32 := by decide
/-- V42: storing zero leaves the empty memory. -/
theorem test_sw_zero : stateAfter (withData 0xFFFFFFFF#32 9#32 (one 0xAFA00000#32 [])) =
    some { one 0xAFA00000#32 [] with pc := 0x00400004#32 } := by decide +kernel

/-! ## Errors and the end of a program -/

/-- V37, V38, V39, V40. -/
theorem test_data_errors :
    errorOf (one 0xAFA80200#32 [(8, 0x12345678#32)]) = some (.dataOutOfRange 0xFFFFFDFF#32) ∧
    errorOf (one 0x8FA8FFFC#32 []) = some (.dataOutOfRange 3#32) ∧
    errorOf (one 0x8FA80002#32 []) = some (.dataMisaligned 0xFFFFFFFD#32) ∧
    errorOf (one 0x8C080000#32 []) = some (.dataMisaligned 0#32) := by decide
/-- V62, V64 (V142), V65, V143. -/
theorem test_fetch_errors :
    errorOf (inside 4 0x00400006#32 0#32 []) = some (.fetchMisaligned 0x00400006#32) ∧
    errorOf (inside 4 0x003FFFFE#32 0#32 []) = some (.fetchMisaligned 0x003FFFFE#32) ∧
    errorOf (inside 4 0#32 0#32 []) = some (.fetchOutOfRange 0#32) ∧
    errorOf (inside 4 0x003FFFFC#32 0#32 []) = some (.fetchOutOfRange 0x003FFFFC#32) := by decide
/-- V72, V79. -/
theorem test_unsupported :
    errorOf (one 0x0100000D#32 []) = some (.unsupportedInstruction 0x0100000D#32) ∧
    errorOf (one 0xFFFFFFFF#32 []) = some (.unsupportedInstruction 0xFFFFFFFF#32) := by decide
/-- V63, V66, V144, V146. -/
theorem test_finished :
    (hostStep (inside 4 0x00400012#32 0#32 [])).2 = .finished ∧ (hostStep (inside 4 0xFFFFFFFF#32 0#32 [])).2 = .finished ∧
    (hostStep (inside 4 0x00400010#32 0#32 [])).2 = .finished ∧ (hostStep State.reset).2 = .finished := by decide
/-- V145: the last instruction is fetched. -/
theorem test_last_word : after 8 (inside 4 0x0040000C#32 0x20080005#32 []) = some (0x00400010#32, 5#32) := by decide
/-- V151, V152. -/
theorem test_load_capacity :
    (handle (.load (List.replicate 128 0#32)) State.reset).2 = .ok ∧
    (handle (.load (List.replicate 129 0#32)) State.reset) = (State.reset, .refused (.programTooLong 129)) := by decide +kernel
/-- R262: what the host places under the PC of the reset state is the load of a one-word program. -/
theorem test_with_fetch_word :
    .next (State.reset.withFetchWord 32 0x20080005) = load [0x20080005#32] State.reset := by rfl
/-- S10. -/
theorem test_slot_addresses : slotAddress defaultConfig 0 = 0xFFFFFFFF#32 ∧
    slotAddress defaultConfig 1 = 0xFFFFFFFB#32 ∧ slotAddress defaultConfig 127 = 0xFFFFFE03#32 := by decide

/-! ## The parameters of R7 -/

/-- U1: under `fail` a write to `$zero` is an error, also the one of the all-zero word; other writes are as before. -/
theorem test_zero_write_fail : errorOf (on strictZero (one 0x2000FFFF#32 [])) = some .zeroRegisterWrite ∧
    errorOf (on strictZero (one 0#32 [])) = some .zeroRegisterWrite ∧
    after 8 (on strictZero (one 0x2108FFFF#32 [])) = some (0x00400004#32, 0xFFFFFFFF#32) := by decide
/-- `lw $zero,2($sp)` reports its address, `lw $zero,0($sp)` its write (log 4). -/
theorem test_zero_write_fail_lw : errorOf (on strictZero (one 0x8FA00002#32 [])) = some (.dataMisaligned 0xFFFFFFFD#32) ∧
    errorOf (on strictZero (one 0x8FA00000#32 [])) = some .zeroRegisterWrite := by decide
/-- R55, R262: the capacities of the machine at hand decide, here with one word of each memory. -/
theorem test_capacities : errorOf (on smallest (one 0xAFA80004#32 [])) = some (.dataOutOfRange 0xFFFFFFFB#32) ∧
    slotAfter 0 (on smallest (one 0xAFBD0000#32 [])) = some 0xFFFFFFFF#32 ∧
    (handle (.load [0#32, 0#32]) (on smallest State.reset)).2 = .refused (.programTooLong 2) ∧
    (handle (.load [0#32]) (on smallest State.reset)).2 = .ok := by decide

/-- Log 24: where `END` is `2 ^ 32` the last word's `pc + 4` is 0, which is below the base, by R28, R33 and R53. -/
theorem test_end_at_top : top.legal = true ∧
    after 8 { on top (one 0x20080005#32 []) with pc := 0xFFFFFFFC#32 } = some (0#32, 5#32) ∧
    errorOf { on top (one 0x20080005#32 []) with pc := 0#32 } = some (.fetchOutOfRange 0#32) := by decide
/-- R92: assembler and CPU share the map of their configuration: with `lw` and `sw` exchanged the word of `sw` is the one of
`lw`, and it stores. -/
theorem test_opcode_map : assemble { defaultConfig with opcodes := exchanged } "sw $sp,508($sp)".toList = .ok [0x8FBD01FC#32] ∧
    slotAfter 127 (on { defaultConfig with opcodes := exchanged } (one 0x8FBD01FC#32 [])) = some 0xFFFFFFFF#32 := by decide

/-! ## The assembler -/

/-- The words of a text, or the kind and the line of the error. -/
def asm (text : String) : Except (AsmErrorKind × Nat) (List Word) :=
  (assemble defaultConfig text.toList).mapError fun e => (e.kind, e.line)

/-- V90, V91. -/
theorem test_asm_white_space : asm "add   $t0 , $t1 ,$t2   # c" = .ok [0x012A4020#32] ∧
    asm "add\t$t0,$t1,$t2" = .ok [0x012A4020#32] := by decide
/-- V92. -/
theorem test_asm_empty : asm "   # only a comment\n\n" = .ok [] := by decide
/-- V94. -/
theorem test_asm_labels : asm "l1:\nl2:\nadd $t0,$t0,$t0\nbeq $t0,$t0,l2\nbne $t0,$t0,l1" =
    .ok [0x01084020#32, 0x1108FFFE#32, 0x1508FFFD#32] := by decide
/-- V95, V96, V97. -/
theorem test_asm_jumps : asm "beq $zero,$zero,e\ne:" = .ok [0x10000000#32] ∧
    asm "add:\nadd $t0,$t0,$t0\nj add" = .ok [0x01084020#32, 0x08100000#32] ∧
    asm "L:\njal L" = .ok [0x0C100000#32] := by decide
/-- S1. -/
theorem test_asm_scenario_a :
    asm "addi $t0,$zero,5\naddi $t1,$zero,3\nadd $t2,$t0,$t1\nsw $t2,0($sp)\nlw $t3,0($sp)" =
      .ok [0x20080005#32, 0x20090003#32, 0x01095020#32, 0xAFAA0000#32, 0x8FAB0000#32] := by decide
/-- V98, V99, V100. -/
theorem test_asm_numbers : asm "addi $t0,$zero,+7" = .ok [0x20080007#32] ∧
    asm "lw $t0,-0($sp)" = .ok [0x8FA80000#32] ∧ asm "sw $t0,-32768($sp)" = .ok [0xAFA88000#32] := by decide
/-- P3. -/
theorem test_asm_alu : asm "srl $t1,$t0,28\nsll $t2,$t1,4\nand $t3,$t0,$t2\nor $t4,$t3,$t1\nslt $t5,$t0,$t1\nsub $t7,$t1,$t0\njr $ra" =
    .ok [0x00084F02#32, 0x00095100#32, 0x010A5824#32, 0x01696025#32, 0x0109682A#32, 0x01287822#32, 0x03E00008#32] := by
  decide
/-- V103, V104, V105. -/
theorem test_asm_unknown : asm "foo $t0,$t1,$t2" = .error (.unknownMnemonic, 1) ∧
    asm "ADD $t0,$t1,$t2" = .error (.unknownMnemonic, 1) ∧
    asm "x: add $t0,$t0,$t0" = .error (.unknownMnemonic, 1) := by decide
/-- V106, V108, V109, V110. -/
theorem test_asm_operand_count : asm "add $t0,$t1" = .error (.operandCount, 1) ∧ asm "jr" = .error (.operandCount, 1) ∧
    asm "lw $t0,4 ($sp)" = .error (.operandCount, 1) ∧ asm "addi $t0,$zero," = .error (.operandCount, 1) := by decide
/-- V111, V112, V113, V114. -/
theorem test_asm_bad_register : asm "add $t0,$t1,$32" = .error (.badRegister, 1) ∧
    asm "add $t0,$t1,t2" = .error (.badRegister, 1) ∧ asm "add $T0,$t1,$t2" = .error (.badRegister, 1) ∧
    asm "lw $t0,4($xx)" = .error (.badRegister, 1) := by decide
/-- V115, V116, V117. -/
theorem test_asm_bad_number : asm "addi $t0,$zero,0x10" = .error (.badNumber, 1) ∧
    asm "addi $t0,$zero,--1" = .error (.badNumber, 1) ∧ asm "lw $t0,x($sp)" = .error (.badNumber, 1) := by decide
/-- V118, V119, V120. -/
theorem test_asm_bad_mem_operand : asm "lw $t0,($sp)" = .error (.badMemOperand, 1) ∧
    asm "lw $t0,4($sp" = .error (.badMemOperand, 1) ∧ asm "lw $t0,4" = .error (.badMemOperand, 1) := by decide
/-- S3 (V121), V122, S4, V123, V124. -/
theorem test_asm_out_of_range : asm "sll $t0,$t1,32" = .error (.outOfRange, 1) ∧
    asm "srl $t0,$t1,-1" = .error (.outOfRange, 1) ∧ asm "addi $t0,$zero,32768" = .error (.outOfRange, 1) ∧
    asm "addi $t0,$zero,-32769" = .error (.outOfRange, 1) ∧ asm "lw $t0,32768($sp)" = .error (.outOfRange, 1) := by decide
/-- V125, V126, V127. -/
theorem test_asm_label_errors : asm "beq $t0,$t1,nowhere" = .error (.unresolvedLabel, 1) ∧
    asm "j nowhere" = .error (.unresolvedLabel, 1) ∧
    asm "a:\na:\nadd $t0,$t0,$t0" = .error (.duplicateLabel, 2) := by decide
/-- V128, V129. -/
theorem test_asm_first_error : asm "foo $t0\nadd $t0,$t1" = .error (.unknownMnemonic, 1) ∧
    asm "add $t0,$t1\nx:\nx:" = .error (.duplicateLabel, 3) := by decide

/-! ## Witnesses: the hypotheses of each statement, met together -/

theorem witness_EncodeThenDecodeGivesInstruction : defaultOpcodes.legal = true ∧ exchanged.legal = true ∧
    (Instr.lw 8 (-32768) 29).wf = true ∧ (Instr.sll 31 31 31).wf = true ∧ (Instr.j 67108863).wf = true := by decide
theorem witness_DecodedInstructionFitsItsWord : decode defaultOpcodes 0x03E950C8#32 = .ok (.jr 31) := by decide
theorem witness_WordIsInstructionWhenMaskedMatch :
    ∃ p ∈ patternTable defaultOpcodes, p.mnemonic = "jr" ∧ 0x03E950C8#32 &&& p.mask = p.pattern := by decide
theorem witness_UnusedFieldsAreIgnored : ∃ p ∈ patternTable defaultOpcodes, p.mnemonic = (Instr.jr 31).mnemonic ∧
    0x03E950C8#32 &&& p.mask = p.pattern ∧ 0x03E950C8#32 &&& p.unused ≠ 0#32 := by decide
/-- Clause 2, both ways a word is unsupported: funct `001100`, and opcode `111111`. -/
theorem witness_UnsupportedWordIsAnError :
    (one 0x0000000C#32 []).finished = false ∧ iFetch (one 0x0000000C#32 []).pc (one 0x0000000C#32 []) = .ok 0x0000000C#32 ∧
    (0x0000000C#32).extractLsb' 26 6 = defaultOpcodes.special ∧ (0x0000000C#32).extractLsb' 0 6 ∉ defaultOpcodes.functs ∧
    (one 0xFFFFFFFF#32 []).finished = false ∧ iFetch (one 0xFFFFFFFF#32 []).pc (one 0xFFFFFFFF#32 []) = .ok 0xFFFFFFFF#32 ∧
    (0xFFFFFFFF#32).extractLsb' 26 6 ∉ defaultOpcodes.opcodes := by decide
/-- One machine of each policy. -/
theorem witness_ZeroWordOnlyAdvancesPc :
    (one 0#32 []).config.opcodes = defaultOpcodes ∧ (on strictZero (one 0#32 [])).config.opcodes = defaultOpcodes ∧
    ((one 0#32 []).finished = false ∧ iFetch (one 0#32 []).pc (one 0#32 []) = .ok 0#32 ∧
      (one 0#32 []).config.zeroWrite = .ignore) ∧
    ((on strictZero (one 0#32 [])).finished = false ∧
      iFetch (on strictZero (one 0#32 [])).pc (on strictZero (one 0#32 [])) = .ok 0#32 ∧
      (on strictZero (one 0#32 [])).config.zeroWrite = .fail) := by decide
theorem witness_BinaryStringIsTheWord :
    ofBinaryString ('1' :: List.replicate 30 '0' ++ ['1']) = some 0x80000001#32 := by decide
/-- The indices where the clauses meet, read and written: 0 and 31 inside, -1 and 32 outside; 0 under each policy. -/
theorem witness_RegisterIndexErrorOnlyOutsideRange :
    regFileRead 0 State.reset = .ok 0#32 ∧ regFileRead 31 State.reset = .ok 0#32 ∧
    regFileRead (-1) State.reset = .error (.regIndexOutOfRange (-1)) ∧
    regFileRead 32 State.reset = .error (.regIndexOutOfRange 32) ∧
    regFileWrite 0 7#32 State.reset = .ok State.reset ∧
    regFileWrite 0 7#32 (on strictZero State.reset) = .error .zeroRegisterWrite ∧
    regFileWrite 31 7#32 State.reset = .ok (regsAt [(31, 7#32)]) ∧
    regFileWrite (-1) 7#32 State.reset = .error (.regIndexOutOfRange (-1)) ∧
    regFileWrite 32 7#32 State.reset = .error (.regIndexOutOfRange 32) := by decide
theorem witness_RegisterWriteReplacesOneWord :
    regFileWrite 31 7#32 State.reset = .ok (regsAt [(31, 7#32)]) ∧ regFileWrite 0 7#32 State.reset = .ok State.reset ∧
    regFileRead 31 (regsAt [(31, 7#32)]) = .ok 7#32 := by decide
theorem witness_OnlyListedRegistersAreWritten :
    exec (.jal 0) State.reset = .next { regsAt [(31, 0x00400004#32)] with pc := 0#32 } := by rfl
/-- Two states that differ in a register not read: a next state, and an error. -/
theorem witness_OnlyListedRegistersAreRead :
    (regsAt [(8, 1#32)]).config = (regsAt [(8, 1#32), (9, 5#32)]).config ∧
    (regsAt [(8, 1#32)]).pc = (regsAt [(8, 1#32), (9, 5#32)]).pc ∧
    (∀ r ∈ (Instr.addi 10 8 1).reads, readReg r (regsAt [(8, 1#32)]) = readReg r (regsAt [(8, 1#32), (9, 5#32)])) ∧
    (∀ r ∈ (Instr.lw 8 0 0).reads, readReg r (regsAt [(8, 1#32)]) = readReg r (regsAt [(8, 1#32), (9, 5#32)])) ∧
    dataKept (regsAt [(8, 1#32)]) (regsAt [(8, 1#32), (9, 5#32)]) ∧
    faultOf (exec (.lw 8 0 0) (regsAt [(8, 1#32)])) = some (.dataMisaligned 0#32) :=
  ⟨rfl, by decide, by decide, by decide, fun _ => rfl, by decide⟩
theorem witness_OnlyListedRegistersAreRead_next :
    exec (.addi 10 8 1) (regsAt [(8, 1#32)]) = .next { regsAt [(8, 1#32), (10, 2#32)] with pc := 0x00400004#32 } := by rfl
/-- The premise `writeAllowed`, met in its two ways and not met: for `add sub and or slt sll srl addi lw`. -/
theorem witness_writeAllowed : writeAllowed 31 (on strictZero State.reset) ∧ writeAllowed 0 State.reset ∧
    ¬ writeAllowed 0 (on strictZero State.reset) := by decide
/-- Where the three clauses meet: slot 0, slot 127, one word below it, off the stride, and the wrapped address 3. -/
theorem witness_LegalDataAddresses : defaultConfig.legal = true ∧
    dataError defaultConfig 0xFFFFFFFF#32 = none ∧ dataError defaultConfig 0xFFFFFE03#32 = none ∧
    dataError defaultConfig 0xFFFFFDFF#32 = some (.dataOutOfRange 0xFFFFFDFF#32) ∧ dataError defaultConfig 3#32 = some (.dataOutOfRange 3#32) ∧
    dataError defaultConfig 0xFFFFFE02#32 = some (.dataMisaligned 0xFFFFFE02#32) ∧ dataError defaultConfig 0#32 = some (.dataMisaligned 0#32) := by
  decide
/-- `d` of the four boundary offsets from `$sp`: 0, 508 legal; 512 out of range; 2 misaligned (V35 to V39). -/
theorem witness_LwLoadsTheSlot :
    let d (offset : BitVec 16) := (State.reset.config.baseData - (readReg 29 State.reset - sext32 offset)).toNat
    State.reset.config.legal = true ∧
    (d 0#16 % 4 = 0 ∧ d 0#16 / 4 < State.reset.config.dmemWords) ∧ (d 508#16 % 4 = 0 ∧ d 508#16 / 4 < State.reset.config.dmemWords) ∧
    (d 512#16 % 4 = 0 ∧ State.reset.config.dmemWords ≤ d 512#16 / 4) ∧ d 2#16 % 4 ≠ 0 := by decide
theorem witness_SwStoresTheSlot :
    let d (offset : BitVec 16) := (State.reset.config.baseData - (readReg 29 State.reset - sext32 offset)).toNat
    State.reset.config.legal = true ∧
    (d 0#16 % 4 = 0 ∧ d 0#16 / 4 < State.reset.config.dmemWords) ∧ (d 508#16 % 4 = 0 ∧ d 508#16 / 4 < State.reset.config.dmemWords) ∧
    (d 0xFFFC#16 % 4 = 0 ∧ State.reset.config.dmemWords ≤ d 0xFFFC#16 / 4) ∧ d 3#16 % 4 ≠ 0 := by decide
/-- A step that stores, and one that does not. -/
theorem witness_OnlyStoresChangeData :
    (one 0xAFA801FC#32 [(8, 7#32)]).config.legal = true ∧
    nextStore (one 0xAFA801FC#32 [(8, 7#32)]) = some (0xFFFFFE03#32, 7#32) ∧
    (after 8 (one 0xAFA801FC#32 [(8, 7#32)])).isSome ∧
    nextStore (one 0x2108FFFF#32 []) = none ∧ (after 8 (one 0x2108FFFF#32 [])).isSome := by decide
/-- A run of one step that stores, and the address of slots 0 and 127. -/
theorem witness_LoadReturnsMostRecentStore :
    let s := (runFor 1 (hostReset (one 0xAFBD0000#32 []))).1
    s.config.legal = true ∧ effectiveAddress 0 29 s = slotAddress s.config 0 ∧
    effectiveAddress 508 29 s = slotAddress s.config 127 ∧ 127 < s.config.dmemWords ∧
    storesDuring 1 (hostReset (one 0xAFBD0000#32 [])) = [(slotAddress s.config 0, 0xFFFFFFFF#32)] := by decide
theorem witness_OnlyLoadChangesProgram :
    (handle (.load (List.replicate 128 0#32)) State.reset).1.imem.length = 128 ∧
    (handle (.load (List.replicate 129 0#32)) State.reset).1.imem = [] := by decide +kernel
theorem witness_JrReturnsAfterJal :
    exec (.jal 0) State.reset = .next { regsAt [(31, 0x00400004#32)] with pc := 0#32 } ∧
    readReg 31 (regsAt [(31, 0x00400004#32), (8, 1#32)]) = readReg 31 { regsAt [(31, 0x00400004#32)] with pc := 0#32 } :=
  ⟨rfl, by decide⟩
/-- S5 (i = 2, k = 0), taken and not taken; S6 (k = 127). -/
theorem witness_BranchAndJumpRoundTrip :
    defaultConfig.opcodes.legal = true ∧ branchDisplacement (instructionAddress defaultConfig 0) (instructionAddress defaultConfig 2) = -3 ∧ imm16Fits (-3) = true ∧
    (inside 3 0x00400008#32 0#32 [(8, 1#32)]).pc = defaultConfig.baseInstr + BitVec.ofNat 32 (4 * 2) ∧
    readReg 8 (inside 3 0x00400008#32 0#32 [(8, 1#32)]) ≠ readReg 9 (inside 3 0x00400008#32 0#32 [(8, 1#32)]) ∧
    readReg 9 (inside 3 0x00400008#32 0#32 [(8, 1#32)]) = readReg 10 (inside 3 0x00400008#32 0#32 [(8, 1#32)]) ∧
    (0x004001FC#32).toNat % 4 = 0 ∧ (0x004001FC#32).extractLsb' 28 4 = State.reset.pc.extractLsb' 28 4 := by decide
theorem witness_StepRunsDecodedInstruction :
    (one 0x20080005#32 []).finished = false ∧
    iFetch (one 0x20080005#32 []).pc (one 0x20080005#32 []) = .ok 0x20080005#32 ∧
    decode defaultOpcodes 0x20080005#32 = .ok (.addi 8 0 5) := by decide
/-- A PC for each clause: `END`, `END - 4`, misaligned below `END`, `BASE_INSTR - 4`, `BASE_INSTR`. -/
theorem witness_StepJudgesThePc :
    let last := defaultConfig.baseInstr.toNat + 4 * 4
    last ≤ (0x00400010#32).toNat ∧
    ((0x0040000C#32).toNat < last ∧ (0x0040000C#32).toNat % 4 = 0 ∧ defaultConfig.baseInstr.toNat ≤ (0x0040000C#32).toNat) ∧
    ((0x0040000D#32).toNat < last ∧ (0x0040000D#32).toNat % 4 ≠ 0) ∧
    ((0x003FFFFC#32).toNat < last ∧ (0x003FFFFC#32).toNat % 4 = 0 ∧ (0x003FFFFC#32).toNat < defaultConfig.baseInstr.toNat) ∧
    ((0x00400000#32).toNat < last ∧ (0x00400000#32).toNat % 4 = 0 ∧ defaultConfig.baseInstr.toNat ≤ (0x00400000#32).toNat) := by
  decide
/-- A step that is not `Ok`, and a fetch of each kind of instruction the table of R28 tells apart, with its step. -/
theorem witness_PcAfterEachStep :
    (hostStep State.reset).2 ≠ .ok ∧
    nextInstr (one 0x11090002#32 []) = some (.beq 8 9 2) ∧ (after 8 (one 0x11090002#32 [])).isSome ∧
    nextInstr (one 0x15090002#32 []) = some (.bne 8 9 2) ∧ (after 8 (one 0x15090002#32 [])).isSome ∧
    nextInstr (one 0x08100004#32 []) = some (.j 0x100004) ∧ (after 8 (one 0x08100004#32 [])).isSome ∧
    nextInstr (one 0x0C100004#32 []) = some (.jal 0x100004) ∧ (after 8 (one 0x0C100004#32 [])).isSome ∧
    nextInstr (one 0x03E00008#32 []) = some (.jr 31) ∧ (after 8 (one 0x03E00008#32 [])).isSome ∧
    nextInstr (one 0#32 []) = some (.sll 0 0 0) ∧ (after 8 (one 0#32 [])).isSome := by decide
theorem witness_PcStaysAlignedUnlessJr :
    (one 0x1000FFFF#32 []).pcAligned ∧ (∀ rs, nextInstr (one 0x1000FFFF#32 []) ≠ some (.jr rs)) ∧
    (after 8 (one 0x1000FFFF#32 [])).isSome := by decide
/-- The premise on the map, and the right sides of the clauses that name a cause; of `zeroRegisterWrite` also its premise on a load. -/
theorem witness_EachErrorHasItsCause : State.reset.config.opcodes.legal = true ∧
    ((inside 4 0x00400006#32 0#32 []).pc.toNat < defaultConfig.baseInstr.toNat + 4 * (inside 4 0x00400006#32 0#32 []).instructionCount ∧
      (inside 4 0x00400006#32 0#32 []).pc.toNat % 4 ≠ 0) ∧
    ((inside 4 0x003FFFFC#32 0#32 []).pc.toNat % 4 = 0 ∧ (inside 4 0x003FFFFC#32 0#32 []).pc.toNat < defaultConfig.baseInstr.toNat) ∧
    (∀ p ∈ patternTable defaultOpcodes, 0x04000000#32 &&& p.mask ≠ p.pattern) ∧
    (nextInstr (one 0x8FA80002#32 []) = some (.lw 8 2 29) ∧ errorOf (one 0x8FA80002#32 []) = some (.dataMisaligned 0xFFFFFFFD#32)) ∧
    (nextInstr (one 0xAFA80200#32 []) = some (.sw 8 512 29) ∧ errorOf (one 0xAFA80200#32 []) = some (.dataOutOfRange 0xFFFFFDFF#32)) ∧
    (nextInstr (on strictZero (one 0x8FA00000#32 [])) = some (.lw 0 0 29) ∧ (0 : Reg) ∈ (Instr.lw 0 0 29).writes ∧
      dataError strictZero (readReg 29 State.reset - BitVec.ofInt 32 0) = none) := by
  decide
/-- V140. -/
theorem witness_ErrorChangesNothingAndRepeats : hostStep (one 0xAFA80200#32 [(8, 0x12345678#32)]) =
    (one 0xAFA80200#32 [(8, 0x12345678#32)], .error (.dataOutOfRange 0xFFFFFDFF#32)) := by decide
/-- The three ways to the state; 127 is the last slot. -/
theorem witness_ResetValues : State.reset = State.initial defaultConfig ∧ hostReset (one 0#32 [(8, 1#32)]) = one 0#32 [] ∧
    load [0#32] (regsAt [(8, 1#32)]) = .next (one 0#32 []) ∧ 127 < State.reset.config.dmemWords ∧ (8 : Reg) ≠ 29 :=
  ⟨rfl, by decide, rfl, by decide, by decide⟩
theorem witness_ResetForgetsEverythingButProgram :
    (one 0#32 [(8, 1#32)]).imem = (one 0#32 [(9, 2#32)]).imem ∧
    (one 0#32 [(8, 1#32)]).config = (one 0#32 [(9, 2#32)]).config ∧ one 0#32 [(8, 1#32)] ≠ one 0#32 [(9, 2#32)] ∧
    (one 0#32 [(8, 1#32)]).imem ≠ [] := by decide
theorem witness_LoadReplacesOrRefuses : State.reset.config.imemWords < (List.replicate 129 (0#32 : Word)).length ∧
    (List.replicate 128 (0#32 : Word)).length ≤ State.reset.config.imemWords ∧
    State.reset.config = (regsAt [(8, 1#32)]).config :=
  ⟨by simp [State.reset, State.initial, defaultConfig], by simp [State.reset, State.initial, defaultConfig], rfl⟩
theorem witness_ResetStateIsSound : smallest.legal = true ∧ Config.legal { defaultConfig with dmemWords := 262144 } = true := by
  decide
/-- A state outside the reset history that meets the invariant, and its step. -/
theorem witness_EveryEventKeepsInvariant :
    (withData 0xFFFFFE03#32 0x01020304#32 (one 0xAFA801FC#32 [(8, 7#32)])).Inv ∧
    (after 8 (withData 0xFFFFFE03#32 0x01020304#32 (one 0xAFA801FC#32 [(8, 7#32)]))).isSome :=
  ⟨⟨by decide, by decide, by decide, by decide, by decide⟩, by decide⟩
/-- A history with a load that is accepted and one that is not. -/
theorem witness_InvariantOfEveryHistory : smallest.legal = true ∧
    (afterEvents smallest [.load [0x20080005#32], .step, .load [0#32, 0#32]]).imem = [0x20080005#32] := by decide
theorem witness_AssembledWordsAreInstructions :
    assemble defaultConfig "jr $ra".toList = .ok [0x03E00008#32] ∧ 0x03E00008#32 ∈ [0x03E00008#32] := by decide
/-- Two lines with a comment, a tab, a carriage return and an empty line; a core with white space on both sides and one
with nothing in it; a text of two instruction lines. -/
theorem witness_OneWordPerInstructionLine :
    cleanedLines "\t jr $ra\r # x\n\nj L".toList = [(1, "jr $ra".toList), (3, "j L".toList)] ∧
    (∀ line ∈ ["\t jr $ra\r # x".toList, [], "j L".toList], '\n' ∉ line) ∧
    cleanLine "\t jr $ra\r # x".toList = "jr $ra".toList ∧ cleanLine " # x".toList = [] ∧ '#' ∉ "jr $ra".toList ∧
    "jr $ra".toList.head? = some 'j' ∧ "jr $ra".toList.getLast? = some 'a' ∧
    assemble defaultConfig "L:\njr $ra\nj L".toList = .ok [0x03E00008#32, 0x08100000#32] ∧
    ((cleanedLines "L:\njr $ra\nj L".toList).filter isInstructionLine)[1]? = some (3, "j L".toList) := by decide
/-- Identifiers at the ends of each range of characters, and lines that are no labels. -/
theorem witness_LabelsBindNextInstruction :
    labelOfLine "azAZ_09 \t:".toList = some "azAZ_09".toList ∧ labelOfLine "_:".toList = some "_".toList ∧
    labelOfLine "9a:".toList = none ∧ labelOfLine ":".toList = none ∧ labelOfLine "a.b:".toList = none ∧
    labelOfLine "a::".toList = none ∧ labelOfLine "a: jr $ra".toList = none ∧
    buildLabels defaultConfig (cleanedLines "jr $ra\nL:".toList) 0 [] = .ok [("L".toList, 0x00400004)] := by decide
theorem witness_DuplicateLabelIsRejected :
    buildLabels defaultConfig (cleanedLines "a:\na:".toList) 0 [] = .error ⟨.duplicateLabel, 2, "a".toList⟩ := by decide
/-- An error of pass 2 at the second instruction line, and an error of pass 1. -/
theorem witness_FirstFailingLineIsReported :
    assemble defaultConfig "jr $ra\njr".toList = .error ⟨.operandCount, 2, "jr".toList⟩ ∧
    assemble defaultConfig "a:\na:".toList = .error ⟨.duplicateLabel, 2, "a".toList⟩ := by decide
/-- Three different registers, the values where the clauses meet, and a token that names no register, leftmost of two. -/
theorem witness_NumericOperandsAreRangeChecked :
    registerOfName "$t0".toList = some 8 ∧ registerOfName "$ra".toList = some 31 ∧ registerOfName "$zero".toList = some 0 ∧
    assembleOperands 0 [] "sub".toList ["$t0".toList, "$ra".toList, "$zero".toList] = .ok (.sub 8 31 0) ∧
    readInteger "31".toList = some 31 ∧ readInteger "32".toList = some 32 ∧ readInteger "-1".toList = some (-1) ∧
    readInteger "-32768".toList = some (-32768) ∧ readInteger "+32768".toList = some 32768 ∧
    readInteger "0x10".toList = none ∧ readInteger "".toList = none ∧ registerOfName "t0".toList = none ∧
    assembleOperands 0 [] "beq".toList ["$t0".toList, "t0".toList, "nowhere".toList] = .error (.badRegister, "t0".toList) ∧
    assembleOperands 0 [] "sw".toList ["t0".toList, "4".toList] = .error (.badRegister, "t0".toList) := by decide
/-- Leading zeros, each sign, and the rejected shapes. -/
theorem witness_DecimalIntegersAreExact :
    readInteger "007".toList = some 7 ∧ readInteger "-0".toList = some 0 ∧ readInteger "+09".toList = some 9 ∧
    readInteger "+".toList = none ∧ readInteger "--1".toList = none ∧ readInteger "+-1".toList = none ∧
    readInteger "1a".toList = none ∧ readInteger "1-".toList = none ∧ readInteger "/".toList = none ∧
    readInteger ":".toList = none := by decide
/-- Tokens on both sides: names, and near misses. -/
theorem witness_RegisterNamesAreExact : "$fp".toList = (registerName 30).toList ∧
    (∀ r : Reg, "$s8".toList ≠ (registerName r).toList) ∧ (∀ r : Reg, "t0".toList ≠ (registerName r).toList) := by decide
/-- Separators of each kind; a line with no token, one with an unknown mnemonic, two with a wrong count. -/
theorem witness_MnemonicAndCountAreCheckedFirst :
    tokensOf ", \t\rlw,,$t0 \t, 4($sp),".toList = ["lw".toList, "$t0".toList, "4($sp)".toList] ∧
    tokensOf " ,".toList = [] ∧ assembleLine 0 [] ",".toList = .error (.unknownMnemonic, []) ∧
    assembleLine 0 [] "nop".toList = .error (.unknownMnemonic, "nop".toList) ∧
    assembleLine 0 [] "jr".toList = .error (.operandCount, "jr".toList) ∧
    assembleLine 0 [] "lw x,y,z".toList = .error (.operandCount, "lw".toList) := by decide
/-- A map with a label, a name that is not in it, and the displacements at and beyond both ends of the range. -/
theorem witness_LabelOperandsAreResolved :
    let labels : LabelMap := [("L".toList, 0x00500000)]
    let at_ (cur : Nat) := assembleOperands cur labels "beq".toList ["$t0".toList, "$t1".toList, "L".toList]
    registerOfName "$t0".toList = some 8 ∧ registerOfName "$t1".toList = some 9 ∧
    labels.address "L".toList = some 0x00500000 ∧ labels.address "M".toList = none ∧
    ((32767 : Int) * 4 = ((0x00500000 : Nat) : Int) - ((0x004E0000 : Nat) + 4) ∧ at_ 0x004E0000 = .ok (.beq 8 9 32767)) ∧
    ((32768 : Int) * 4 = ((0x00500000 : Nat) : Int) - ((0x004DFFFC : Nat) + 4) ∧
      at_ 0x004DFFFC = .error (.outOfRange, "L".toList)) ∧
    ((-32768 : Int) * 4 = ((0x00500000 : Nat) : Int) - ((0x0051FFFC : Nat) + 4) ∧ at_ 0x0051FFFC = .ok (.beq 8 9 (-32768))) ∧
    ((-32769 : Int) * 4 = ((0x00500000 : Nat) : Int) - ((0x00520000 : Nat) + 4) ∧
      at_ 0x00520000 = .error (.outOfRange, "L".toList)) := by decide
/-- The parts of a memory operand, and a token for each malformed shape (V118, V119, V120). -/
theorem witness_MemoryOperandIsOffsetAndRegister :
    registerOfName "$t0".toList = some 8 ∧ readInteger "-32768".toList = some (-32768) ∧
    readInteger "32768".toList = some 32768 ∧ registerOfName "$sp".toList = some 29 ∧
    registerOfName "$xx".toList = none ∧ readInteger "x".toList = none ∧ '(' ∉ "x".toList ∧ '(' ∉ "4".toList ∧
    "4($sp".toList.getLast? ≠ some ')' ∧
    assembleOperands 0 [] "lw".toList ["$t0".toList, "($sp)".toList] = .error (.badMemOperand, "($sp)".toList) ∧
    assembleOperands 0 [] "lw".toList ["$t0".toList, "4()".toList] = .error (.badMemOperand, "4()".toList) ∧
    assembleOperands 0 [] "sw".toList ["$t0".toList, "4($sp".toList] = .error (.badMemOperand, "4($sp".toList) := by decide
theorem witness_BringUpLoadsTheProgram : State.reset.config.legal = true ∧
    assemble State.reset.config "jr $ra".toList = .ok [0x03E00008#32] ∧
    [0x03E00008#32].length ≤ State.reset.config.imemWords ∧
    assemble State.reset.config "jr".toList = .error ⟨.operandCount, 1, "jr".toList⟩ := by decide
/-- A field with bit 15 set and one without, of a load and of a branch. -/
theorem witness_ImmediatesAreSignExtended :
    decode defaultOpcodes 0x8FA88000#32 = .ok (.lw 8 (-32768) 29) ∧ immWord (-32768) = 0xFFFF8000#32 ∧
    decode defaultOpcodes 0x11097FFF#32 = .ok (.beq 8 9 32767) ∧ immWord 32767 = 0x00007FFF#32 := by decide

end Sys2Proof.Tests
end

section
/-! SUPPORT. What an instruction can do to the state, in three kinds, with the frames that follow; the states of reset
and load; and with them the statements about the registers, the data memory, the PC and the invariant. -/

namespace Sys2Proof.Machine

/-! ## What an instruction can do -/

/-- The ways an instruction that answers a next state gets there (R26, R114, R115): no write, one register written, one word
stored; and the PC of phase 5. -/
inductive Effect (i : Instr) (s : State) : State → Prop where
  | noWrite (e : Option Word) (hwrites : i.writes = []) (hsw : ∀ rt offset rs, i ≠ .sw rt offset rs) :
      Effect i s (advancePc e s)
  | register (r : Reg) (v : Word) (e : Option Word) (hwrites : i.writes = [r]) (hallowed : writeError r s = none) :
      Effect i s (advancePc e (writeReg r v s))
  | store (rt : Reg) (offset : Int) (rs : Reg) (hsw : i = .sw rt offset rs)
      (hlegal : dataError s.config (effectiveAddress offset rs s) = none) :
      Effect i s (advancePc none
        { s with dmem := s.dmem.writeWord (wordCells (effectiveAddress offset rs s)) (readReg rt s) })

section Effects
variable {i : Instr} {s t : State} {r : Reg} {v : Word} {e : Option Word}

theorem effect_of_commit (hwrites : i.writes = []) (hsw : ∀ rt offset rs, i ≠ .sw rt offset rs)
    (h : commit e s = .next t) : Effect i s t := by
  obtain rfl := commit_eq_next.1 h
  exact .noWrite e hwrites hsw

theorem effect_of_commitReg (hwrites : i.writes = [r]) (h : commitReg r v e s = .next t) : Effect i s t := by
  obtain ⟨hallowed, rfl⟩ := (commitReg_next ..).1 h
  exact .register r v e hwrites hallowed

/-- Every instruction that answers a next state has one of the three effects. -/
theorem exec_effect (h : exec i s = .next t) : Effect i s t := by
  cases i with
  | jr | j | beq | bne => exact effect_of_commit rfl nofun h
  | sll | srl | add | sub | and | or | slt | jal | addi => exact effect_of_commitReg rfl h
  | lw rt offset rs =>
    obtain ⟨-, hallowed, rfl⟩ := execLw_next h
    exact .register rt _ none rfl hallowed
  | sw rt offset rs =>
    obtain ⟨hlegal, rfl⟩ := execSw_next h
    exact .store rt offset rs rfl hlegal

/-- An instruction changes no register it does not list as written (R26). -/
theorem exec_registersKept (h : exec i s = .next t) : registersKept i.writes s t := by
  intro k hk
  cases exec_effect h with
  | noWrite e hwrites => rfl
  | register r v e hwrites =>
    rw [hwrites, List.mem_singleton] at hk
    exact readReg_writeReg_other s r k v hk
  | store rt offset rs => rfl

/-- An instruction other than `sw` leaves the data memory (R32). -/
theorem exec_dmem_of_not_sw (h : exec i s = .next t) (hi : ∀ rt offset rs, i ≠ .sw rt offset rs) : t.dmem = s.dmem := by
  cases exec_effect h with
  | noWrite e => rfl
  | register r v e => simp
  | store rt offset rs hsw => exact absurd hsw (hi rt offset rs)

/-- A step that gets as far as an instruction is the meaning of that instruction (R114, R118). -/
theorem step_eq_exec {w : Word} (hrun : s.finished = false) (hfetch : iFetch s.pc s = .ok w)
    (hdecode : decode s.config.opcodes w = .ok i) : step s = exec i s := by
  simp [step, runCycle, executeWord, hrun, hfetch, hdecode]

/-- No step changes the program or the configuration (R30; log 2). -/
theorem step_program (h : step s = .next t) : programKept s t := by
  obtain ⟨-, rfl⟩ | ⟨w, i, -, -, -, hexec⟩ := step_next_cases h
  · exact ⟨rfl, rfl⟩
  · exact exec_program hexec

end Effects

/-- Settles O11, from the three kinds of effect. -/
theorem onlyListedRegistersAreWritten : Obligations.OnlyListedRegistersAreWritten :=
  fun _ _ _ h => ⟨exec_registersKept h, exec_program h⟩

/-! ## The register file as the host sees it -/

/-- A write the register file accepts is a write to a register of that index (R24, R25). -/
theorem regFileWrite_ok {index : Int} {v : Word} {s t : State} (h : regFileWrite index v s = .ok t) :
    ∃ r, registerOfIndex index = some r ∧ t = writeReg r v s := by
  unfold regFileWrite at h
  cases hr : registerOfIndex index with
  | none => simp [hr] at h
  | some r =>
    cases hw : writeError r s with
    | some f => simp [hr, hw] at h
    | none => exact ⟨r, rfl, by simpa [hr, hw, eq_comm] using h⟩

/-- The register of an index is the one with that number. -/
theorem registerOfIndex_eq_some {index : Int} {r : Reg} : registerOfIndex index = some r ↔ index = (r.val : Int) := by
  have := r.isLt
  unfold registerOfIndex
  split
  · simp only [Option.some.injEq, Fin.ext_iff]
    omega
  · simp only [reduceCtorEq, false_iff]
    omega

/-- Inside `[0, 31]` the register file answers the register of that number (R22). -/
theorem regFileRead_val (r : Reg) (s : State) : regFileRead (r.val : Int) s = .ok (readReg r s) := by
  rw [regFileRead, registerOfIndex_eq_some.2 rfl]

/-- Settles O10: a read after an accepted write, at register 0, at the written register and at another. -/
theorem registerWriteReplacesOneWord : Obligations.RegisterWriteReplacesOneWord := by
  intro i k v s t h hk0 hk31
  obtain ⟨r, hr, rfl⟩ := regFileWrite_ok h
  obtain rfl := registerOfIndex_eq_some.1 hr
  obtain ⟨x, rfl⟩ : ∃ x : Reg, k = (x.val : Int) := ⟨⟨k.toNat, by omega⟩, (Int.toNat_of_nonneg hk0).symm⟩
  refine ⟨?_, writeReg_pc .., writeReg_dmem .., writeReg_imem .., writeReg_config ..⟩
  have hval (y : Reg) : (x.val : Int) = y.val ↔ x = y := by rw [Int.natCast_inj, Fin.ext_iff]
  have hzero : (x.val : Int) = 0 ↔ x = 0 := hval 0
  simp only [regFileRead_val, hzero, hval]
  by_cases hx : x = 0
  · rw [if_pos hx, hx, readReg_zero]
  · rw [if_neg hx]
    by_cases hxr : x = r
    · rw [if_pos hxr, ← hxr, readReg_writeReg_same, if_neg hx]
    · rw [if_neg hxr, readReg_writeReg_other s r x v hxr]

/-! ## An instruction's result depends on what it reads -/

/-- Words are read alike from memories that agree on every byte. -/
theorem Memory.readWord_congr {m n : Memory} (h : ∀ a, m.readByte a = n.readByte a) (lo : Nat) :
    m.readWord lo = n.readWord lo := by
  simp only [Memory.readWord, h]

theorem Memory.readByte_writeByte (m : Memory) (a b : Nat) (v : Byte) :
    (m.writeByte a v).readByte b = if b = a then v else m.readByte b := by
  split
  · next h => rw [h, Memory.readByte_writeByte_same]
  · next h => exact Memory.readByte_writeByte_ne m a b v h

/-- Memories that agree on every byte do so after the same store. -/
theorem Memory.readByte_writeWord_congr {m n : Memory} (h : ∀ a, m.readByte a = n.readByte a) (lo a : Nat) (v : Word) :
    (m.writeWord lo v).readByte a = (n.writeWord lo v).readByte a := by
  simp only [Memory.writeWord, Memory.readByte_writeByte, h]

/-- Two outcomes that agree on the PC, the data memory and the registers of a list, or are the same error. -/
def SameResult (written : List Reg) (o p : Host.Outcome State Fault Refusal) : Prop :=
  (∀ t, o = .next t → ∃ t', p = .next t' ∧ t.pc = t'.pc ∧ dataKept t t' ∧
    ∀ r ∈ written, readReg r t = readReg r t') ∧
  ∀ f, o = .fault f → p = .fault f

section Reads
variable {s u : State} (hconfig : s.config = u.config) (hpc : s.pc = u.pc) (hdata : dataKept s u)

/-- Agreement on the two registers of a list of two. -/
theorem readReg_eq_of_pair {a b : Reg} (h : ∀ r ∈ [a, b], readReg r s = readReg r u) :
    readReg a s = readReg a u ∧ readReg b s = readReg b u := by
  simpa using h

theorem sameResult_raise (written : List Reg) (f : Fault) : SameResult written (raise f) (raise f) :=
  ⟨nofun, fun _ h => h⟩

include hpc

include hdata in
theorem sameResult_commit (e : Option Word) : SameResult [] (commit e s) (commit e u) := by
  refine ⟨fun t h => ?_, fun f h => absurd h commit_ne_fault⟩
  obtain rfl := commit_eq_next.1 h
  exact ⟨_, rfl, by simp [hpc], hdata, nofun⟩

include hconfig hdata in
theorem sameResult_commitReg (r : Reg) (v : Word) (e : Option Word) :
    SameResult [r] (commitReg r v e s) (commitReg r v e u) := by
  have herror : writeError r s = writeError r u := by simp only [writeError, hconfig]
  refine ⟨fun t h => ?_, fun f h => (commitReg_fault ..).2 (herror ▸ (commitReg_fault ..).1 h)⟩
  obtain ⟨hallowed, rfl⟩ := (commitReg_next ..).1 h
  refine ⟨_, (commitReg_next ..).2 ⟨herror ▸ hallowed, rfl⟩, by simp [hpc], fun a => by simpa using hdata a, ?_⟩
  intro k hk
  obtain rfl := List.mem_singleton.1 hk
  simp only [readReg_advancePc, readReg_writeReg_same]

include hconfig hdata in
/-- A load reads its base register only (R153). -/
theorem sameResult_execLw {rt rs : Reg} {offset : Int} (hrs : readReg rs s = readReg rs u) :
    SameResult [rt] (execLw rt offset rs s) (execLw rt offset rs u) := by
  have hword (a : Word) : u.dmem.readWord (wordCells a) = s.dmem.readWord (wordCells a) := Memory.readWord_congr hdata _
  unfold execLw memRead effectiveAddress
  rw [hrs, hconfig]
  cases dataError u.config (readReg rs u - immWord offset) with
  | some f => exact sameResult_raise _ f
  | none =>
    rw [hword]
    exact sameResult_commitReg hconfig hpc hdata ..

include hconfig hdata in
/-- A store reads its base register and the register it stores (R154). -/
theorem sameResult_execSw {rt rs : Reg} {offset : Int} (hrs : readReg rs s = readReg rs u)
    (hrt : readReg rt s = readReg rt u) : SameResult [] (execSw rt offset rs s) (execSw rt offset rs u) := by
  unfold execSw memWrite effectiveAddress
  rw [hrs, hrt, hconfig]
  cases dataError u.config (readReg rs u - immWord offset) with
  | some f => exact sameResult_raise _ f
  | none => exact sameResult_commit (by exact hpc) (fun a => Memory.readByte_writeWord_congr hdata _ a _) none

include hconfig hdata in
/-- Agreement on what an instruction reads gives the same result. -/
theorem sameResult_exec {i : Instr} (hreads : ∀ r ∈ i.reads, readReg r s = readReg r u) :
    SameResult i.writes (exec i s) (exec i u) := by
  have hcommit := sameResult_commit hpc hdata
  have hcommitReg := sameResult_commitReg hconfig hpc hdata
  cases i with
  | sll rd rt shamt | srl rd rt shamt =>
    have hrt := hreads rt (.head _)
    simp only [exec_sll, exec_srl, execSll, execSrl, writeResult, hrt]
    exact hcommitReg ..
  | add rd rs rt | sub rd rs rt | and rd rs rt | or rd rs rt | slt rd rs rt =>
    obtain ⟨hrs, hrt⟩ := readReg_eq_of_pair hreads
    simp only [exec_add, exec_sub, exec_and, exec_or, exec_slt, execAdd, execSub, execAnd, execOr, execSlt, writeResult,
      hrs, hrt]
    exact hcommitReg ..
  | addi rt rs imm =>
    have hrs := hreads rs (.head _)
    simp only [exec_addi, execAddi, hrs]
    exact hcommitReg ..
  | jal target =>
    simp only [exec_jal, execJal, nextPc, jumpTarget, hpc]
    exact hcommitReg ..
  | j target =>
    simp only [exec_j, execJ, jumpTarget, hpc]
    exact hcommit _
  | jr rs =>
    have hrs := hreads rs (.head _)
    simp only [exec_jr, execJr, hrs]
    exact hcommit _
  | beq rs rt disp | bne rs rt disp =>
    obtain ⟨hrs, hrt⟩ := readReg_eq_of_pair hreads
    simp only [exec_beq, exec_bne, execBeq, execBne, branchIf, branchTarget, nextPc, hrs, hrt, hpc]
    exact hcommit _
  | lw rt offset rs => exact sameResult_execLw hconfig hpc hdata (hreads rs (.head _))
  | sw rt offset rs =>
    obtain ⟨hrs, hrt⟩ := readReg_eq_of_pair hreads
    exact sameResult_execSw hconfig hpc hdata hrs hrt

end Reads

/-- Settles O12, instruction by instruction from what the two ways to end a step depend on. -/
theorem onlyListedRegistersAreRead : Obligations.OnlyListedRegistersAreRead :=
  fun _ _ _ hconfig hpc hdata hreads => sameResult_exec hconfig hpc hdata hreads

/-! ## The slots of the data memory -/

section Slots
variable {c : Config} {s t : State} {k : Nat} {addr : Word}

/-- The address of an existing slot does not wrap (R52). -/
theorem slotAddress_toNat (hc : c.legal = true) (hk : k < c.dmemWords) :
    (slotAddress c k).toNat = 4294967295 - 4 * k := by
  have := legal_dmemWords hc
  rw [slotAddress, legal_baseData hc, BitVec.toNat_ofNat, BitVec.toNat_ofNat]
  omega

/-- The lowest cell of an existing slot. -/
theorem wordCells_slotAddress (hc : c.legal = true) (hk : k < c.dmemWords) :
    wordCells (slotAddress c k) = 4294967292 - 4 * k := by
  rw [wordCells, slotAddress_toNat hc hk]
  omega

/-- A legal data address is the address of an existing slot (R55, R56). -/
theorem exists_slot_of_legal (hc : c.legal = true) (h : dataError c addr = none) :
    ∃ j, j < c.dmemWords ∧ addr = slotAddress c j := by
  obtain ⟨hstride, hrange⟩ := dataError_none.1 h
  refine ⟨_, hrange, BitVec.eq_of_toNat_eq ?_⟩
  rw [slotAddress_toNat hc hrange]
  rw [dataDistance_eq hc] at hstride ⊢
  have := addr.isLt
  omega

/-- The cells of a legal address lie below it without wrapping. -/
theorem wordCells_add_three (hc : c.legal = true) (h : dataError c addr = none) : wordCells addr + 3 = addr.toNat := by
  obtain ⟨j, hj, rfl⟩ := exists_slot_of_legal hc h
  have := legal_dmemWords hc
  rw [wordCells_slotAddress hc hj, slotAddress_toNat hc hj]
  omega

/-- Different slots share no cell, so a store to one is read back in that one only (R58). -/
theorem slotWord_of_store (hc : s.config.legal = true) (hk : k < s.config.dmemWords) {v : Word}
    (haddr : dataError s.config addr = none) (hconfig : t.config = s.config)
    (hdmem : t.dmem = s.dmem.writeWord (wordCells addr) v) :
    slotWord k t = if slotAddress s.config k = addr then v else slotWord k s := by
  obtain ⟨j, hj, rfl⟩ := exists_slot_of_legal hc haddr
  rw [slotWord, slotWord, hdmem, hconfig]
  split
  · next h => rw [h, Memory.readWord_writeWord_same]
  · next h =>
    refine Memory.readWord_writeWord_disjoint _ _ _ _ ?_
    have hne : k ≠ j := fun hkj => h (by rw [hkj])
    have := legal_dmemWords hc
    rw [wordCells_slotAddress hc hk, wordCells_slotAddress hc hj]
    omega

end Slots

/-! ## The store of a step -/

section Stores
variable {s t : State} {i : Instr}

theorem nextInstr_of_finished (h : s.finished = true) : nextInstr s = none := by
  simp [nextInstr, h]

theorem nextInstr_of_decode {w : Word} (hrun : s.finished = false) (hfetch : iFetch s.pc s = .ok w)
    (hdecode : decode s.config.opcodes w = .ok i) : nextInstr s = some i := by
  simp [nextInstr, hrun, hfetch, hdecode]

/-- Only a `sw` stores. -/
theorem nextStore_of_not_sw (h : ∀ rt offset rs, nextInstr s ≠ some (.sw rt offset rs)) : nextStore s = none := by
  unfold nextStore
  split
  · next heq => exact absurd heq (h _ _ _)
  · rfl

theorem nextStore_of_sw {rt rs : Reg} {offset : Int} (h : nextInstr s = some (.sw rt offset rs))
    (hlegal : dataError s.config (effectiveAddress offset rs s) = none) :
    nextStore s = some (effectiveAddress offset rs s, readReg rt s) := by
  simp [nextStore, h, hlegal]

/-- What a step does to the data memory: nothing, or its store, to a legal address (R32, R58). -/
theorem step_store_cases (h : step s = .next t) :
    (nextStore s = none ∧ t.dmem = s.dmem) ∨
      ∃ addr v, nextStore s = some (addr, v) ∧ dataError s.config addr = none ∧
        t.dmem = s.dmem.writeWord (wordCells addr) v := by
  obtain ⟨hfinished, rfl⟩ | ⟨w, i, hrun, hfetch, hdecode, hexec⟩ := step_next_cases h
  · exact .inl ⟨nextStore_of_not_sw (by simp [nextInstr_of_finished hfinished]), rfl⟩
  · have hnext := nextInstr_of_decode hrun hfetch hdecode
    by_cases hsw : ∃ rt offset rs, i = .sw rt offset rs
    · obtain ⟨rt, offset, rs, rfl⟩ := hsw
      obtain ⟨hlegal, rfl⟩ := execSw_next hexec
      exact .inr ⟨_, _, nextStore_of_sw hnext hlegal, hlegal, rfl⟩
    · have hne : ∀ rt offset rs, i ≠ .sw rt offset rs := fun rt offset rs hi => hsw ⟨rt, offset, rs, hi⟩
      exact .inl ⟨nextStore_of_not_sw (by simpa [hnext] using hne), exec_dmem_of_not_sw hexec hne⟩

end Stores

/-- Settles O25, from what a step does to the data memory. -/
theorem onlyStoresChangeData : Obligations.OnlyStoresChangeData := by
  intro s t hc h
  obtain ⟨hnone, hdmem⟩ | ⟨addr, v, hsome, hlegal, hdmem⟩ := step_store_cases h
  · exact ⟨fun _ a => by rw [hdmem], fun addr v hs => by simp [hnone] at hs⟩
  · refine ⟨fun hn => by simp [hsome] at hn, fun addr' v' hs => ?_⟩
    obtain ⟨rfl, rfl⟩ : addr = addr' ∧ v = v' := by simpa [hsome] using hs
    refine ⟨fun k hk => slotWord_of_store hc hk hlegal (step_program h).2 hdmem, fun a ha => ?_⟩
    rw [hdmem]
    have := wordCells_add_three hc hlegal
    exact Memory.readByte_writeWord_ne _ _ _ _ (by omega)

/-! ## The PC -/

section Pc
variable {s t : State}

theorem commit_pc {e : Option Word} (h : commit e s = .next t) : t.pc = e.getD (s.pc + 4#32) := by
  rw [← commit_eq_next.1 h, advancePc_pc]

theorem commitReg_pc {r : Reg} {v : Word} {e : Option Word} (h : commitReg r v e s = .next t) :
    t.pc = e.getD (s.pc + 4#32) := by
  obtain ⟨-, rfl⟩ := (commitReg_next ..).1 h
  simp

/-- The displacement counts words (R172). -/
theorem branchTarget_eq (disp : Int) (s : State) :
    branchTarget disp s = s.pc + 4#32 + BitVec.ofInt 32 (disp * 4) := by
  rw [branchTarget, nextPc, immWord, BitVec.ofInt_mul]
  rfl

/-- The field of a jump counts words (R175). -/
theorem jumpTarget_eq (target : Nat) (s : State) :
    jumpTarget target s = (s.pc &&& 0xF0000000#32) ||| BitVec.ofNat 32 (4 * target) := by
  have hshift : BitVec.ofNat 32 target <<< 2 = BitVec.ofNat 32 (4 * target) := by
    apply BitVec.eq_of_toNat_eq
    simp only [BitVec.toNat_shiftLeft, BitVec.toNat_ofNat, Nat.shiftLeft_eq]
    omega
  rw [jumpTarget, hshift]

theorem branchIf_pc {taken : Bool} {disp : Int} (h : branchIf taken disp s = .next t) :
    t.pc = if taken then s.pc + 4#32 + BitVec.ofInt 32 (disp * 4) else s.pc + 4#32 := by
  rw [commit_pc h, ← branchTarget_eq]
  cases taken <;> rfl

/-- What a host step leaves: the state as it was, or, reporting `Ok`, the next state (R110, R117, R241). -/
theorem hostStep_cases (s : State) :
    (hostStep s).1 = s ∨ ((hostStep s).2 = .ok ∧ step s = .next (hostStep s).1) := by
  unfold hostStep
  split
  · exact .inl rfl
  · cases hs : step s with
    | next t => exact .inr ⟨rfl, rfl⟩
    | fault f => exact .inl rfl
    | refused r => exact .inl rfl

end Pc

/-- Settles O37, instruction by instruction from the PC of the two ways a step ends `Ok`. -/
theorem pcAfterEachStep : Obligations.PcAfterEachStep := by
  intro s
  constructor
  · intro hreport
    obtain hsame | ⟨hok, -⟩ := hostStep_cases s
    · rw [hsame]
    · exact absurd hok hreport
  · intro w i t hrun hfetch hdecode hstep
    rw [step_eq_exec hrun hfetch hdecode] at hstep
    cases i with
    | sll | srl | add | sub | and | or | slt | addi => exact commitReg_pc hstep
    | lw rt offset rs =>
      obtain ⟨-, -, rfl⟩ := execLw_next hstep
      simp
    | sw rt offset rs =>
      obtain ⟨-, rfl⟩ := execSw_next hstep
      rfl
    | jr rs => exact commit_pc hstep
    | j target => exact (commit_pc hstep).trans (jumpTarget_eq target s)
    | jal target =>
      rw [exec_jal, execJal] at hstep
      exact (commitReg_pc hstep).trans (jumpTarget_eq target s)
    | beq rs rt disp => simpa [wordsEqual] using branchIf_pc hstep
    | bne rs rt disp => simpa [wordsEqual] using branchIf_pc hstep

/-! ## The states of construction, reset and load -/

/-- The state of construction with a program: what a reset and a load leave (R41, R260 to R262). -/
def fresh (c : Config) (program : List Word) : State := { State.initial c with imem := program }

section Fresh
variable (c : Config) (program : List Word) (s t : State)

@[simp] theorem fresh_config : (fresh c program).config = c := rfl

theorem initial_eq_fresh : State.initial c = fresh c [] := rfl

theorem hostReset_eq_fresh : hostReset s = fresh s.config s.imem := rfl

/-- A load is accepted exactly when the program fits, and resets (R262). -/
theorem load_eq_next : load program s = .next t ↔
    program.length ≤ s.config.imemWords ∧ t = fresh s.config program := by
  unfold load programFits
  simp only [decide_eq_true_eq]
  split
  · next hfits => simp [hfits, hostReset, fresh, eq_comm]
  · next htoo => simp [htoo]

/-- The data memory of a fresh state reads as zero (R41). -/
theorem fresh_readByte (a : Nat) : (fresh c program).dmem.readByte a = 0#8 := rfl

theorem fresh_slotWord (k : Nat) : slotWord k (fresh c program) = 0#32 := by
  simp [slotWord, Memory.readWord, fresh_readByte]

theorem fresh_stackPointer : readReg 29 (fresh c program) = c.baseData := by
  simp [readReg, fresh, State.initial]

theorem fresh_readReg {r : Reg} (hr : r ≠ 29) : readReg r (fresh c program) = 0#32 := by
  have hval : (29 : Nat) ≠ (r : Nat) := fun hv => hr (Fin.ext hv.symm)
  simp [readReg, fresh, State.initial, Vector.getElem_set_ne, hval]

/-- A fresh state runs exactly when it has a program (R33, R263). -/
theorem fresh_isFinished : isFinished (fresh c program) = false ↔ 0 < (fresh c program).instructionCount := by
  have hpc : (fresh c program).pc = c.baseInstr := rfl
  simp only [isFinished, State.finished, State.endAddress, hpc, fresh_config, decide_eq_false_iff_not]
  omega

end Fresh

/-- Settles O42: each of the three states is a fresh one. -/
theorem resetValues : Obligations.ResetValues := by
  refine ⟨fun t ht => ?_, rfl, rfl, rfl⟩
  obtain ⟨c, p, rfl⟩ : ∃ c p, t = fresh c p := by
    obtain ⟨c, rfl⟩ | ⟨s, rfl⟩ | ⟨words, s, h⟩ := ht
    · exact ⟨c, [], initial_eq_fresh c⟩
    · exact ⟨s.config, s.imem, hostReset_eq_fresh s⟩
    · exact ⟨s.config, words, ((load_eq_next ..).1 h).2⟩
  refine ⟨rfl, fresh_stackPointer c p, fun r hr => fresh_readReg c p hr, fun k _ => fresh_slotWord c p k,
    fresh_readByte c p, fun _ => rfl, fun _ => rfl, fun words s h => ?_, fresh_isFinished c p⟩
  have himem : p = words := congrArg State.imem ((load_eq_next ..).1 h).2
  exact ⟨himem, congrArg List.length himem⟩

/-! ## The invariant -/

section Invariant
variable {s t : State}

theorem State.Inv.advancePc (h : s.Inv) (e : Option Word) : (advancePc e s).Inv :=
  ⟨h.configLegal, h.zeroCell, h.programFits, h.dataCanonical, h.dataInSlots⟩

theorem State.Inv.writeReg (h : s.Inv) (r : Reg) (v : Word) : (writeReg r v s).Inv where
  configLegal := by simpa using h.configLegal
  zeroCell := (writeReg_zeroCell s r v).trans h.zeroCell
  programFits := by simpa [State.instructionCount] using h.programFits
  dataCanonical := by simpa using h.dataCanonical
  dataInSlots := by simpa using h.dataInSlots

/-- A store to a legal address lists cells of an existing slot only. -/
theorem State.Inv.writeWord (h : s.Inv) {addr : Word} (haddr : dataError s.config addr = none) (v : Word) :
    ({ s with dmem := s.dmem.writeWord (wordCells addr) v } : State).Inv where
  configLegal := h.configLegal
  zeroCell := h.zeroCell
  programFits := h.programFits
  dataCanonical := Memory.wf_writeWord _ _ _ h.dataCanonical
  dataInSlots := by
    intro cell hcell
    obtain hold | hnew := Memory.mem_writeWord _ _ _ hcell
    · exact h.dataInSlots cell hold
    · obtain ⟨j, hj, rfl⟩ := exists_slot_of_legal h.configLegal haddr
      rw [wordCells_slotAddress h.configLegal hj] at hnew
      have := legal_dmemWords h.configLegal
      dsimp only
      omega

theorem exec_inv {i : Instr} (hs : s.Inv) (h : exec i s = .next t) : t.Inv := by
  cases exec_effect h with
  | noWrite e => exact hs.advancePc e
  | register r v e => exact (hs.writeReg r v).advancePc e
  | store rt offset rs hsw hlegal => exact (hs.writeWord hlegal _).advancePc none

theorem step_inv (hs : s.Inv) (h : step s = .next t) : t.Inv := by
  obtain ⟨-, rfl⟩ | ⟨w, i, -, -, -, hexec⟩ := step_next_cases h
  · exact hs
  · exact exec_inv hs hexec

/-- A fresh state with a program that fits is sound (R41). -/
theorem fresh_inv {c : Config} {program : List Word} (hc : c.legal = true) (hfits : program.length ≤ c.imemWords) :
    (fresh c program).Inv where
  configLegal := hc
  zeroCell := by simp [fresh, State.initial]
  programFits := hfits
  dataCanonical := ⟨.nil, nofun⟩
  dataInSlots := nofun

/-- What a load event leaves: the state as it was for a program that is too long, else a fresh state (R262). -/
theorem handle_load (words : List Word) (s : State) : (handle (.load words) s).1 =
    if words.length ≤ s.config.imemWords then fresh s.config words else s := by
  simp only [handle, load, programFits, decide_eq_true_eq]
  split <;> rfl

theorem handle_inv (e : Event) (hs : s.Inv) : (handle e s).1.Inv := by
  cases e with
  | step =>
    obtain hsame | ⟨-, hnext⟩ := hostStep_cases s
    · exact hsame.symm ▸ hs
    · exact step_inv hs hnext
  | reset => exact fresh_inv hs.configLegal hs.programFits
  | load words =>
    rw [handle_load]
    split
    · next hfits => exact fresh_inv hs.configLegal hfits
    · exact hs

end Invariant

/-- Settles O46: each kind of effect keeps the invariant, and reset and load give fresh states. -/
theorem everyEventKeepsInvariant : Obligations.EveryEventKeepsInvariant :=
  ⟨fun _ _ => step_inv, fun e _ => handle_inv e⟩

/-- Settles O45: the states of construction are fresh. -/
theorem resetStateIsSound : Obligations.ResetStateIsSound :=
  ⟨fresh_inv (c := defaultConfig) (by decide) (Nat.zero_le _), fun _ hc => fresh_inv hc (Nat.zero_le _)⟩

/-! ## Histories -/

section Histories
variable (c : Config) (es : List Event) (e : Event) (s : State)

/-- A step event keeps the program and the configuration (R30; log 2). -/
theorem hostStep_program : programKept s (hostStep s).1 := by
  obtain hsame | ⟨-, hnext⟩ := hostStep_cases s
  · exact hsame.symm ▸ ⟨rfl, rfl⟩
  · exact step_program hnext

/-- No event changes the configuration (log 2). -/
theorem handle_config : (handle e s).1.config = s.config := by
  cases e with
  | step => exact (hostStep_program s).2
  | reset => rfl
  | load words =>
    rw [handle_load]
    split <;> rfl

theorem afterEvents_concat : afterEvents c (es ++ [e]) = (handle e (afterEvents c es)).1 := by
  simp [afterEvents]

theorem afterEvents_config : (afterEvents c es).config = c := by
  induction es using List.reverseRecOn with
  | nil => rfl
  | append_singleton es e ih => rw [afterEvents_concat, handle_config, ih]

theorem afterEvents_inv (hc : c.legal = true) : (afterEvents c es).Inv := by
  induction es using List.reverseRecOn with
  | nil => exact fresh_inv hc (Nat.zero_le _)
  | append_singleton es e ih =>
    rw [afterEvents_concat]
    exact handle_inv e ih

/-- The instruction memory holds what the last accepted load put there (R30, R31). -/
theorem afterEvents_imem : (afterEvents c es).imem = lastLoaded c es := by
  induction es using List.reverseRecOn with
  | nil => rfl
  | append_singleton es e ih =>
    rw [afterEvents_concat, lastLoaded, List.foldl_concat, ← lastLoaded]
    cases e with
    | step => exact (hostStep_program _).1.trans ih
    | reset => exact ih
    | load words =>
      rw [handle_load, afterEvents_config, ← ih]
      dsimp only
      split <;> rfl

end Histories

/-- Settles O47, by induction on the history from its end. -/
theorem invariantOfEveryHistory : Obligations.InvariantOfEveryHistory := by
  intro c es hc
  have hinv := afterEvents_inv c es hc
  refine ⟨hinv, readReg_zero _, afterEvents_imem c es, ?_⟩
  have hfits := hinv.programFits
  rwa [afterEvents_config] at hfits

end Sys2Proof.Machine
end

section
/-! SUPPORT. The two memories over a run: which data addresses are legal, what a slot holds after the stores of a run and
what a load from it answers, and what changes the program. With them the statements about the memories. -/

namespace Sys2Proof.Machine

/-! ## The verdict on a data address -/

section Verdict
variable {c : Config} {addr : Word}

/-- Alignment is tested first, so it alone decides this error (D12). -/
theorem dataError_eq_misaligned : dataError c addr = some (.dataMisaligned addr) ↔ dataDistance c addr % 4 ≠ 0 := by
  unfold dataError
  split
  · next hm => exact iff_of_true rfl hm
  · next ha => split <;> exact iff_of_false nofun ha

theorem dataError_eq_outOfRange : dataError c addr = some (.dataOutOfRange addr) ↔
    dataDistance c addr % 4 = 0 ∧ c.dmemWords ≤ dataDistance c addr / 4 := by
  unfold dataError
  split
  · next hm => exact iff_of_false nofun fun h => hm h.1
  · next ha =>
    split
    · next hr => exact iff_of_true rfl ⟨not_not.1 ha, hr⟩
    · next hr => exact iff_of_false nofun fun h => hr h.2

end Verdict

/-- Settles O22: the verdicts on the distance from `BASE_DATA`, which is `2 ^ 32 - 1`. -/
theorem legalDataAddresses : Obligations.LegalDataAddresses := by
  intro c addr hc
  have hdmem := legal_dmemWords hc
  have haddr := addr.isLt
  have hbase : c.baseData.toNat = 4294967295 := by rw [legal_baseData hc]; rfl
  rw [dataError_none, dataError_eq_misaligned, dataError_eq_outOfRange, dataDistance_eq hc, hbase]
  omega

/-! ## Loads from a slot -/

section Loads
variable {s : State} {k : Nat} {rt rs : Reg} {offset : Int}

/-- The address of an existing slot is legal (R55, R56). -/
theorem dataError_slotAddress {c : Config} (hc : c.legal = true) (hk : k < c.dmemWords) :
    dataError c (slotAddress c k) = none := by
  have := legal_dmemWords hc
  rw [dataError_none, dataDistance_eq hc, slotAddress_toNat hc hk]
  omega

/-- A load from the address of a slot writes the slot's word to its register (R57, R153). -/
theorem exec_lw_of_slot (hc : s.config.legal = true) (hk : k < s.config.dmemWords)
    (hea : effectiveAddress offset rs s = slotAddress s.config k) :
    exec (.lw rt offset rs) s = commitReg rt (slotWord k s) none s := by
  rw [exec_lw, execLw_of_legal (hea ▸ dataError_slotAddress hc hk), hea, slotWord]

/-- A register write other than to register 0 completes, and the register reads as the value. -/
theorem commitReg_completes {r : Reg} (hr : r ≠ 0) (v : Word) (e : Option Word) (s : State) :
    ∃ t, commitReg r v e s = .next t ∧ readReg r t = v := by
  refine ⟨_, (commitReg_next ..).2 ⟨(writeError_none ..).2 (.inl hr), rfl⟩, ?_⟩
  rw [readReg_advancePc, readReg_writeReg_same, if_neg hr]

end Loads

/-! ## Runs and their stores -/

section Runs
variable {s t : State} {n k : Nat}

/-- A step of a finished machine changes nothing (R111; log 5). -/
theorem step_of_finished (h : s.finished = true) : step s = .next s := by
  simp [step, runCycle, h]

/-- A finished machine stores nothing more. -/
theorem storesDuring_of_finished (h : s.finished = true) : storesDuring n s = [] := by
  induction n with
  | zero => rfl
  | succ n ih =>
    have hnone : nextStore s = none := nextStore_of_not_sw (by simp [nextInstr_of_finished h])
    simp [storesDuring, step_of_finished h, hnone, ih]

/-- A run stops where it is and stores nothing more, or goes on from the next state with the store of its first step before
the later ones (R120, R64). -/
theorem runFor_succ_cases (n : Nat) (s : State) :
    ((runFor (n + 1) s).1 = s ∧ storesDuring (n + 1) s = []) ∨
      ∃ t, step s = .next t ∧ runFor (n + 1) s = runFor n t ∧
        storesDuring (n + 1) s = (nextStore s).toList ++ storesDuring n t := by
  cases hfinished : s.finished with
  | true => exact .inl ⟨by simp [runFor, hostStep, hfinished], storesDuring_of_finished hfinished⟩
  | false =>
    cases hstep : step s with
    | next t =>
      exact .inr ⟨t, rfl, by simp [runFor, hostStep, settleOutcome, hfinished, hstep], by simp [storesDuring, hstep]⟩
    | fault f | refused r =>
      exact .inl ⟨by simp [runFor, hostStep, settleOutcome, hfinished, hstep], by simp [storesDuring, hstep]⟩

/-- No run changes the program or the configuration (R30; log 2). -/
theorem runFor_program (n : Nat) (s : State) : programKept s (runFor n s).1 := by
  induction n generalizing s with
  | zero => exact ⟨rfl, rfl⟩
  | succ n ih =>
    obtain ⟨hrun, -⟩ | ⟨t, hstep, hrun, -⟩ := runFor_succ_cases n s
    · rw [hrun]
      exact ⟨rfl, rfl⟩
    · obtain ⟨himem, hconfig⟩ := step_program hstep
      obtain ⟨himem', hconfig'⟩ := ih t
      rw [hrun]
      exact ⟨himem'.trans himem, hconfig'.trans hconfig⟩

/-- The later of two lists of stores decides, if it has a store to the address. -/
theorem lastStore_append (addr : Word) (xs ys : List (Word × Word)) (v : Word) :
    lastStore addr (xs ++ ys) v = lastStore addr ys (lastStore addr xs v) := by
  unfold lastStore
  rw [List.filter_append, List.getLast?_append]
  cases (ys.filter fun st => st.1 == addr).getLast? <;> rfl

/-- A step leaves in a slot the value it stores there, or what was there (R58). -/
theorem slotWord_step (hc : s.config.legal = true) (hk : k < s.config.dmemWords) (h : step s = .next t) :
    slotWord k t = lastStore (slotAddress s.config k) (nextStore s).toList (slotWord k s) := by
  have hconfig := (step_program h).2
  obtain ⟨hnone, hdmem⟩ | ⟨addr, v, hsome, hlegal, hdmem⟩ := step_store_cases h
  · rw [hnone, slotWord, hdmem, hconfig]
    rfl
  · rw [slotWord_of_store hc hk hlegal hconfig hdmem, hsome]
    by_cases haddr : addr = slotAddress s.config k
    · simp [lastStore, haddr]
    · simp [lastStore, haddr, Ne.symm haddr]

/-- A slot holds the value of the last store of the run to it, or what it held before (R64). -/
theorem slotWord_runFor (hc : s.config.legal = true) (hk : k < s.config.dmemWords) :
    slotWord k (runFor n s).1 = lastStore (slotAddress s.config k) (storesDuring n s) (slotWord k s) := by
  induction n generalizing s with
  | zero => rfl
  | succ n ih =>
    obtain ⟨hrun, hstores⟩ | ⟨t, hstep, hrun, hstores⟩ := runFor_succ_cases n s
    · rw [hrun, hstores]
      rfl
    · have hconfig := (step_program hstep).2
      rw [hrun, hstores, lastStore_append, ← slotWord_step hc hk hstep, ← hconfig]
      exact ih (hconfig ▸ hc) (hconfig ▸ hk)

end Runs

/-- Settles O26, by induction on the run from the reset state, whose slots are zero. -/
theorem loadReturnsMostRecentStore : Obligations.LoadReturnsMostRecentStore := by
  intro n k s₀ hc hk
  dsimp only
  have hconfig : (runFor n (hostReset s₀)).1.config = s₀.config := (runFor_program n (hostReset s₀)).2
  have hheld : slotWord k (runFor n (hostReset s₀)).1 =
      lastStore (slotAddress s₀.config k) (storesDuring n (hostReset s₀)) 0#32 := by
    rw [slotWord_runFor (s := hostReset s₀) hc hk, hostReset_eq_fresh, fresh_slotWord, fresh_config]
  refine ⟨hheld, fun rt rs offset hrt hea => ?_⟩
  rw [← hconfig] at hc hk hea
  rw [exec_lw_of_slot hc hk hea, ← hheld]
  exact commitReg_completes hrt ..

/-! ## The program -/

/-- A fetch depends on the program and the configuration only (R53). -/
theorem iFetch_of_programKept {s t : State} (h : programKept s t) (addr : Word) : iFetch addr t = iFetch addr s := by
  obtain ⟨himem, hconfig⟩ := h
  rw [iFetch, iFetch, himem, hconfig]

/-- Settles O27, event by event. -/
theorem onlyLoadChangesProgram : Obligations.OnlyLoadChangesProgram := by
  intro s
  have hstep : programKept s (handle .step s).1 := hostStep_program s
  have hreset : programKept s (handle .reset s).1 := ⟨rfl, rfl⟩
  refine ⟨hstep.1, hreset.1, fun addr => ⟨iFetch_of_programKept hstep addr, iFetch_of_programKept hreset addr⟩,
    fun words => ?_, fun e => handle_config e s⟩
  rw [handle_load]
  split <;> rfl

end Sys2Proof.Machine
end

section
/-! SUPPORT. When a word stands for an instruction: the decoder, the encoder and the rows of R93 each say the same of a
word. With it the statements about instruction words, unsupported words and immediates. -/

namespace Sys2Proof

/-! ## A word is its fields, in each format (R82, R83, R84) -/

/-- Concatenations are equal when both parts are. -/
theorem append_eq_iff {n k : Nat} {a b : BitVec n} {c d : BitVec k} : a ++ c = b ++ d ↔ a = b ∧ c = d := by
  refine ⟨fun h => ?_, fun ⟨h₁, h₂⟩ => h₁ ▸ h₂ ▸ rfl⟩
  have hlow : c = d := by rw [← extract_append_low a c, h, extract_append_low]
  exact ⟨(BitVec.append_left_inj c).1 (h.trans (hlow ▸ rfl)), hlow⟩

/-- Neighbouring slices of a word join to one. -/
theorem slices_join (w : Word) (k n l : Nat) :
    w.extractLsb' (k + n) l ++ w.extractLsb' k n = w.extractLsb' k (l + n) :=
  BitVec.extractLsb'_append_extractLsb'_eq_extractLsb' rfl

/-- The field of a register index is the slice it was read from. -/
@[simp] theorem regBits_toFin (v : BitVec 5) : regBits v.toFin = v := rfl

section Fields
variable {m : OpcodeMap} {w : Word} {opcode funct : BitVec 6}

/-- No bit of an R-type word lies outside its six fields. -/
theorem encodeRType_fields (hop : opcodeField w = m.special) :
    encodeRType m (rsField w) (rtField w) (rdField w) (shamtField w) (functField w) = w := by
  simp only [encodeRType, ← hop, opcodeField, rsField, rtField, rdField, shamtField, functField, regBits_toFin,
    BitVec.ofNat_toNat, BitVec.setWidth_eq]
  rw [slices_join w 21 5 6, slices_join w 16 5 11, slices_join w 11 5 16, slices_join w 6 5 21, slices_join w 0 6 26]
  exact extract_whole w

/-- No bit of an I-type word is unused. -/
theorem encodeIType_clear_none (hop : opcodeField w = opcode) :
    encodeIType opcode (rsField w) (rtField w) (immField w) = w &&& ~~~0#32 := by
  simp only [encodeIType, ← hop, opcodeField, rsField, rtField, immField, regBits_toFin, BitVec.ofInt_toInt]
  rw [slices_join w 21 5 6, slices_join w 16 5 11, slices_join w 0 16 16]
  exact (extract_whole w).trans BitVec.and_allOnes.symm

/-- No bit of a J-type word is unused. -/
theorem encodeJType_clear_none (hop : opcodeField w = opcode) : encodeJType opcode (targetField w) = w &&& ~~~0#32 := by
  simp only [encodeJType, ← hop, opcodeField, targetField, BitVec.ofNat_toNat, BitVec.setWidth_eq]
  exact ((slices_join w 0 26 6).trans (extract_whole w)).trans BitVec.and_allOnes.symm

theorem and_ones5 (v : BitVec 5) : v &&& 31#5 = v :=
  (congrArg (v &&& ·) (by decide : (31#5 : BitVec 5) = BitVec.allOnes 5)).trans BitVec.and_allOnes

/-- The word of a shift with `w`'s fields is `w` with the field `rs` cleared. -/
theorem encodeRType_clear_rs (hop : opcodeField w = m.special) (hf : functField w = funct) :
    encodeRType m 0 (rtField w) (rdField w) (shamtField w) funct = w &&& ~~~0x03E00000#32 := by
  have h := encodeRType_fields (m := m) (w := w &&& ~~~0x03E00000#32)
  simp only [opcodeField, rsField, rtField, rdField, shamtField, functField] at hop hf h ⊢
  simpa [BitVec.extractLsb'_and, and_ones6, and_ones5, hop, hf] using h

/-- The word of a `jr` with `w`'s fields is `w` with all but the field `rs` cleared. -/
theorem encodeRType_clear_all_but_rs (hop : opcodeField w = m.special) (hf : functField w = funct) :
    encodeRType m (rsField w) 0 0 0 funct = w &&& ~~~0x001FFFC0#32 := by
  have h := encodeRType_fields (m := m) (w := w &&& ~~~0x001FFFC0#32)
  simp only [opcodeField, rsField, rtField, rdField, shamtField, functField] at hop hf h ⊢
  simpa [BitVec.extractLsb'_and, and_ones6, and_ones5, hop, hf] using h

/-- The word of a three-register instruction with `w`'s fields is `w` with the field `shamt` cleared. -/
theorem encodeRType_clear_shamt (hop : opcodeField w = m.special) (hf : functField w = funct) :
    encodeRType m (rsField w) (rtField w) (rdField w) 0 funct = w &&& ~~~0x000007C0#32 := by
  have h := encodeRType_fields (m := m) (w := w &&& ~~~0x000007C0#32)
  simp only [opcodeField, rsField, rtField, rdField, shamtField, functField] at hop hf h ⊢
  simpa [BitVec.extractLsb'_and, and_ones6, and_ones5, hop, hf] using h

end Fields

/-! ## An operand that does not fit its field is encoded modulo the field -/

section Wrap
variable (m : OpcodeMap) (opcode funct : BitVec 6) (rs rt rd : Reg) (shamt target : Nat) (imm : Int)

@[simp] theorem encodeRType_mod : encodeRType m rs rt rd (shamt % 32) funct = encodeRType m rs rt rd shamt funct := by
  have h : BitVec.ofNat 5 (shamt % 32) = BitVec.ofNat 5 shamt := BitVec.eq_of_toNat_eq (by simp)
  rw [encodeRType, h, encodeRType]

@[simp] theorem encodeIType_bmod : encodeIType opcode rs rt (imm.bmod 65536) = encodeIType opcode rs rt imm := by
  have h : BitVec.ofInt 16 (imm.bmod 65536) = BitVec.ofInt 16 imm := BitVec.eq_of_toInt_eq (by simp)
  rw [encodeIType, h, encodeIType]

@[simp] theorem encodeJType_mod : encodeJType opcode (target % 67108864) = encodeJType opcode target := by
  have h : BitVec.ofNat 26 (target % 67108864) = BitVec.ofNat 26 target := BitVec.eq_of_toNat_eq (by simp)
  rw [encodeJType, h, encodeJType]

end Wrap

/-! ## When a word stands for an instruction (R86) -/

/-- The word `w` stands for an instruction under the map `m`: the opcode, and for R-type the funct, are those of the
instruction, and its operands are the fields of `w`. -/
inductive StandsFor (m : OpcodeMap) (w : Word) : Instr → Prop where
  | sll (hop : opcodeField w = m.special) (hf : functField w = m.sll) :
      StandsFor m w (.sll (rdField w) (rtField w) (shamtField w))
  | srl (hop : opcodeField w = m.special) (hf : functField w = m.srl) :
      StandsFor m w (.srl (rdField w) (rtField w) (shamtField w))
  | jr (hop : opcodeField w = m.special) (hf : functField w = m.jr) : StandsFor m w (.jr (rsField w))
  | add (hop : opcodeField w = m.special) (hf : functField w = m.add) :
      StandsFor m w (.add (rdField w) (rsField w) (rtField w))
  | sub (hop : opcodeField w = m.special) (hf : functField w = m.sub) :
      StandsFor m w (.sub (rdField w) (rsField w) (rtField w))
  | and (hop : opcodeField w = m.special) (hf : functField w = m.and) :
      StandsFor m w (.and (rdField w) (rsField w) (rtField w))
  | or (hop : opcodeField w = m.special) (hf : functField w = m.or) :
      StandsFor m w (.or (rdField w) (rsField w) (rtField w))
  | slt (hop : opcodeField w = m.special) (hf : functField w = m.slt) :
      StandsFor m w (.slt (rdField w) (rsField w) (rtField w))
  | j (hop : opcodeField w = m.j) : StandsFor m w (.j (targetField w))
  | jal (hop : opcodeField w = m.jal) : StandsFor m w (.jal (targetField w))
  | beq (hop : opcodeField w = m.beq) : StandsFor m w (.beq (rsField w) (rtField w) (immField w))
  | bne (hop : opcodeField w = m.bne) : StandsFor m w (.bne (rsField w) (rtField w) (immField w))
  | addi (hop : opcodeField w = m.addi) : StandsFor m w (.addi (rtField w) (rsField w) (immField w))
  | lw (hop : opcodeField w = m.lw) : StandsFor m w (.lw (rtField w) (immField w) (rsField w))
  | sw (hop : opcodeField w = m.sw) : StandsFor m w (.sw (rtField w) (immField w) (rsField w))

/-- A word that decodes executes as the meaning of its instruction (R114). -/
theorem Machine.executeWord_of_decode {w : Word} {i : Instr} {s : Machine.State} (h : decode s.config.opcodes w = .ok i) :
    Machine.executeWord w s = Machine.exec i s := by
  rw [Machine.executeWord, h]

/-! ## One test of the decoder -/

section Branch
variable {p : Prop} [Decidable p] {a b : Instr} {x : Except DecodeError Instr}

/-- An answer of a test comes from the test, or from the tests after it. -/
theorem of_ite_ok {P : Instr → Prop} (h : (if p then .ok a else x) = .ok b) (hthen : p → P a) (helse : x = .ok b → P b) :
    P b := by
  by_cases hp : p
  · rw [if_pos hp] at h
    exact Except.ok.inj h ▸ hthen hp
  · rw [if_neg hp] at h
    exact helse h

/-- A word is rejected when it fails the test and the tests after it reject it. -/
theorem exists_error_ite : (∃ e, (if p then .ok a else x) = .error e) ↔ ¬p ∧ ∃ e, x = .error e := by
  by_cases hp : p <;> simp [hp]

end Branch

section Meaning
variable {m : OpcodeMap} {w : Word} {i : Instr}

/-- What the R-type decoder answers is what the word stands for. -/
theorem standsFor_of_decodeRType (hop : opcodeField w = m.special) (h : decodeRType m w = .ok i) : StandsFor m w i := by
  unfold decodeRType at h
  exact of_ite_ok h (.sll hop) fun h => of_ite_ok h (.srl hop) fun h => of_ite_ok h (.jr hop) fun h =>
    of_ite_ok h (.add hop) fun h => of_ite_ok h (.sub hop) fun h => of_ite_ok h (.and hop) fun h =>
    of_ite_ok h (.or hop) fun h => of_ite_ok h (.slt hop) nofun

/-- What the decoder answers is what the word stands for, with any map. -/
theorem standsFor_of_decode (h : decode m w = .ok i) : StandsFor m w i := by
  unfold decode at h
  by_cases hop : opcodeField w = m.special
  · exact standsFor_of_decodeRType hop ((if_pos hop).symm.trans h)
  · replace h := (if_neg hop).symm.trans h
    exact of_ite_ok h .j fun h => of_ite_ok h .jal fun h => of_ite_ok h .beq fun h => of_ite_ok h .bne fun h =>
      of_ite_ok h .addi fun h => of_ite_ok h .lw fun h => of_ite_ok h .sw nofun

/-- With a legal map, whose numerals differ, the decoder answers what the word stands for. -/
theorem decode_of_standsFor (hm : m.legal = true) (h : StandsFor m w i) : decode m w = .ok i := by
  obtain ⟨-, -, hopcodes, hfuncts⟩ := m.legal_iff.1 hm
  have hops := List.nodup_reverse.2 hopcodes
  have hfs := List.nodup_reverse.2 hfuncts
  simp only [OpcodeMap.opcodes, OpcodeMap.functs, List.reverse_cons, List.reverse_nil, List.nil_append, List.cons_append,
    List.nodup_cons, List.mem_cons, List.not_mem_nil, or_false, not_or] at hops hfs
  cases h with
  | sll hop hf | srl hop hf | jr hop hf | add hop hf | sub hop hf | and hop hf | or hop hf | slt hop hf =>
    simp [decode, decodeRType, hop, hf, hfs]
  | j hop | jal hop | beq hop | bne hop | addi hop | lw hop | sw hop => simp [decode, hop, hops]

/-- Every operand read from a word fits its field (R88, R91). -/
theorem StandsFor.wf (h : StandsFor m w i) : i.wf = true := by
  cases h with
  | sll | srl => exact shamtFits_field _
  | jr | add | sub | and | or | slt => rfl
  | j | jal => exact targetFits_field _
  | beq | bne | addi | lw | sw => exact imm16Fits_field _

end Meaning

/-! ## Encoding (R85) -/

/-- The word of an instruction stands for an instruction with the same word: the instruction itself, when its operands
fit. -/
theorem standsFor_encode (m : OpcodeMap) (i : Instr) :
    ∃ j, StandsFor m (encode m i) j ∧ j.mnemonic = i.mnemonic ∧ encode m j = encode m i ∧ (i.wf = true → j = i) := by
  cases i with
  | sll =>
    exact ⟨_, .sll (opcodeField_encodeRType ..) (functField_encodeRType ..), rfl, by simp [encode],
      fun h => by simpa [encode] using shamt_mod_of_fits h⟩
  | srl =>
    exact ⟨_, .srl (opcodeField_encodeRType ..) (functField_encodeRType ..), rfl, by simp [encode],
      fun h => by simpa [encode] using shamt_mod_of_fits h⟩
  | jr =>
    exact ⟨_, .jr (opcodeField_encodeRType ..) (functField_encodeRType ..), rfl, by simp [encode], by simp [encode]⟩
  | add =>
    exact ⟨_, .add (opcodeField_encodeRType ..) (functField_encodeRType ..), rfl, by simp [encode], by simp [encode]⟩
  | sub =>
    exact ⟨_, .sub (opcodeField_encodeRType ..) (functField_encodeRType ..), rfl, by simp [encode], by simp [encode]⟩
  | and =>
    exact ⟨_, .and (opcodeField_encodeRType ..) (functField_encodeRType ..), rfl, by simp [encode], by simp [encode]⟩
  | or =>
    exact ⟨_, .or (opcodeField_encodeRType ..) (functField_encodeRType ..), rfl, by simp [encode], by simp [encode]⟩
  | slt =>
    exact ⟨_, .slt (opcodeField_encodeRType ..) (functField_encodeRType ..), rfl, by simp [encode], by simp [encode]⟩
  | j =>
    exact ⟨_, .j (opcodeField_encodeJType ..), rfl, by simp [encode],
      fun h => by simpa [encode] using target_mod_of_fits h⟩
  | jal =>
    exact ⟨_, .jal (opcodeField_encodeJType ..), rfl, by simp [encode],
      fun h => by simpa [encode] using target_mod_of_fits h⟩
  | beq =>
    exact ⟨_, .beq (opcodeField_encodeIType ..), rfl, by simp [encode],
      fun h => by simpa [encode] using imm16_field_number h⟩
  | bne =>
    exact ⟨_, .bne (opcodeField_encodeIType ..), rfl, by simp [encode],
      fun h => by simpa [encode] using imm16_field_number h⟩
  | addi =>
    exact ⟨_, .addi (opcodeField_encodeIType ..), rfl, by simp [encode],
      fun h => by simpa [encode] using imm16_field_number h⟩
  | lw =>
    exact ⟨_, .lw (opcodeField_encodeIType ..), rfl, by simp [encode],
      fun h => by simpa [encode] using imm16_field_number h⟩
  | sw =>
    exact ⟨_, .sw (opcodeField_encodeIType ..), rfl, by simp [encode],
      fun h => by simpa [encode] using imm16_field_number h⟩

/-- Settles O1: the word of an instruction whose operands fit stands for it, and a legal map decodes what a word stands
for. -/
theorem encodeThenDecodeGivesInstruction : Obligations.EncodeThenDecodeGivesInstruction := by
  intro m i hm hwf
  obtain ⟨j, hj, -, -, hji⟩ := standsFor_encode m i
  exact decode_of_standsFor hm (hji hwf ▸ hj)

/-! ## The rows of R93 -/

section Rows
variable {m : OpcodeMap} {w : Word} {i : Instr}

/-- A word matches an R-type row when its opcode and its funct are those of the row. -/
theorem rtypeRow_match_iff {name : String} {funct : BitVec 6} {unused : Word} :
    w &&& (rtypeRow m name funct unused).mask = (rtypeRow m name funct unused).pattern ↔
      opcodeField w = m.special ∧ functField w = funct := by
  show w &&& 0xFC00003F#32 = m.special ++ 0#20 ++ funct ↔ _
  rw [mask_rtype]
  exact append_eq_iff.trans (and_congr_left' (BitVec.append_left_inj (0#20)))

/-- A word matches another row when its opcode is that of the row. -/
theorem opcodeRow_match_iff {name : String} {opcode : BitVec 6} :
    w &&& (opcodeRow name opcode).mask = (opcodeRow name opcode).pattern ↔ opcodeField w = opcode := by
  show w &&& 0xFC000000#32 = opcode ++ 0#26 ↔ _
  rw [mask_opcode]
  exact BitVec.append_left_inj (0#26)

/-- A word that stands for an instruction matches the instruction's row, and the instruction's word is the word with
the row's unused bits cleared. -/
theorem StandsFor.row (h : StandsFor m w i) : ∃ p ∈ patternTable m,
    p.mnemonic = i.mnemonic ∧ w &&& p.mask = p.pattern ∧ encode m i = w &&& ~~~p.unused := by
  cases h with
  | sll hop hf =>
    exact ⟨_, List.mem_of_getElem? (i := 0) rfl, rfl, rtypeRow_match_iff.2 ⟨hop, hf⟩, encodeRType_clear_rs hop hf⟩
  | srl hop hf =>
    exact ⟨_, List.mem_of_getElem? (i := 1) rfl, rfl, rtypeRow_match_iff.2 ⟨hop, hf⟩, encodeRType_clear_rs hop hf⟩
  | jr hop hf =>
    exact ⟨_, List.mem_of_getElem? (i := 2) rfl, rfl, rtypeRow_match_iff.2 ⟨hop, hf⟩,
      encodeRType_clear_all_but_rs hop hf⟩
  | add hop hf =>
    exact ⟨_, List.mem_of_getElem? (i := 3) rfl, rfl, rtypeRow_match_iff.2 ⟨hop, hf⟩, encodeRType_clear_shamt hop hf⟩
  | sub hop hf =>
    exact ⟨_, List.mem_of_getElem? (i := 4) rfl, rfl, rtypeRow_match_iff.2 ⟨hop, hf⟩, encodeRType_clear_shamt hop hf⟩
  | and hop hf =>
    exact ⟨_, List.mem_of_getElem? (i := 5) rfl, rfl, rtypeRow_match_iff.2 ⟨hop, hf⟩, encodeRType_clear_shamt hop hf⟩
  | or hop hf =>
    exact ⟨_, List.mem_of_getElem? (i := 6) rfl, rfl, rtypeRow_match_iff.2 ⟨hop, hf⟩, encodeRType_clear_shamt hop hf⟩
  | slt hop hf =>
    exact ⟨_, List.mem_of_getElem? (i := 7) rfl, rfl, rtypeRow_match_iff.2 ⟨hop, hf⟩, encodeRType_clear_shamt hop hf⟩
  | j hop => exact ⟨_, List.mem_of_getElem? (i := 8) rfl, rfl, opcodeRow_match_iff.2 hop, encodeJType_clear_none hop⟩
  | jal hop => exact ⟨_, List.mem_of_getElem? (i := 9) rfl, rfl, opcodeRow_match_iff.2 hop, encodeJType_clear_none hop⟩
  | beq hop => exact ⟨_, List.mem_of_getElem? (i := 10) rfl, rfl, opcodeRow_match_iff.2 hop, encodeIType_clear_none hop⟩
  | bne hop => exact ⟨_, List.mem_of_getElem? (i := 11) rfl, rfl, opcodeRow_match_iff.2 hop, encodeIType_clear_none hop⟩
  | addi hop => exact ⟨_, List.mem_of_getElem? (i := 12) rfl, rfl, opcodeRow_match_iff.2 hop, encodeIType_clear_none hop⟩
  | lw hop => exact ⟨_, List.mem_of_getElem? (i := 13) rfl, rfl, opcodeRow_match_iff.2 hop, encodeIType_clear_none hop⟩
  | sw hop => exact ⟨_, List.mem_of_getElem? (i := 14) rfl, rfl, opcodeRow_match_iff.2 hop, encodeIType_clear_none hop⟩

/-- A word that matches a row stands for an instruction of that row's mnemonic. -/
theorem standsFor_of_match {p : Pattern} (hp : p ∈ patternTable m) (h : w &&& p.mask = p.pattern) :
    ∃ i, StandsFor m w i ∧ i.mnemonic = p.mnemonic := by
  simp only [patternTable, List.mem_cons, List.not_mem_nil, or_false] at hp
  rcases hp with rfl | rfl | rfl | rfl | rfl | rfl | rfl | rfl | hp
  · exact (rtypeRow_match_iff.1 h).elim fun hop hf => ⟨_, .sll hop hf, rfl⟩
  · exact (rtypeRow_match_iff.1 h).elim fun hop hf => ⟨_, .srl hop hf, rfl⟩
  · exact (rtypeRow_match_iff.1 h).elim fun hop hf => ⟨_, .jr hop hf, rfl⟩
  · exact (rtypeRow_match_iff.1 h).elim fun hop hf => ⟨_, .add hop hf, rfl⟩
  · exact (rtypeRow_match_iff.1 h).elim fun hop hf => ⟨_, .sub hop hf, rfl⟩
  · exact (rtypeRow_match_iff.1 h).elim fun hop hf => ⟨_, .and hop hf, rfl⟩
  · exact (rtypeRow_match_iff.1 h).elim fun hop hf => ⟨_, .or hop hf, rfl⟩
  · exact (rtypeRow_match_iff.1 h).elim fun hop hf => ⟨_, .slt hop hf, rfl⟩
  · rcases hp with rfl | rfl | rfl | rfl | rfl | rfl | rfl <;> rw [opcodeRow_match_iff] at h
    exacts [⟨_, .j h, rfl⟩, ⟨_, .jal h, rfl⟩, ⟨_, .beq h, rfl⟩, ⟨_, .bne h, rfl⟩, ⟨_, .addi h, rfl⟩, ⟨_, .lw h, rfl⟩,
      ⟨_, .sw h, rfl⟩]

/-- The fifteen rows have different mnemonics. -/
theorem pattern_eq_of_mnemonic {p q : Pattern} (hp : p ∈ patternTable m) (hq : q ∈ patternTable m)
    (h : p.mnemonic = q.mnemonic) : p = q := by
  have hnodup : ((patternTable m).map Pattern.mnemonic).Nodup := by
    show ["sll", "srl", "jr", "add", "sub", "and", "or", "slt", "j", "jal", "beq", "bne", "addi", "lw", "sw"].Nodup
    decide
  exact List.inj_on_of_nodup_map hnodup hp hq h

end Rows

/-- Settles O2, from what the decoded word stands for. -/
theorem decodedInstructionFitsItsWord : Obligations.DecodedInstructionFitsItsWord := by
  intro m w i h
  have hi := standsFor_of_decode h
  obtain ⟨p, hp, hname, -, hencode⟩ := hi.row
  exact ⟨hi.wf, p, hp, hname, hencode⟩

/-- Settles O3: with a legal map, the one instruction a word decodes to has the mnemonic of every row the word matches;
and rows of one mnemonic are one row. -/
theorem wordIsInstructionWhenMaskedMatch : Obligations.WordIsInstructionWhenMaskedMatch := by
  refine ⟨fun m hm => ⟨fun w name => ⟨?_, ?_⟩, fun w p hp q hq hwp hwq => ?_⟩, by decide⟩
  · rintro ⟨i, hi, rfl⟩
    obtain ⟨p, hp, hname, hmatch, -⟩ := (standsFor_of_decode hi).row
    exact ⟨p, hp, hname, hmatch⟩
  · rintro ⟨p, hp, rfl, hmatch⟩
    obtain ⟨i, hi, hname⟩ := standsFor_of_match hp hmatch
    exact ⟨i, decode_of_standsFor hm hi, hname⟩
  · obtain ⟨i, hi, hip⟩ := standsFor_of_match hp hwp
    obtain ⟨j, hj, hjq⟩ := standsFor_of_match hq hwq
    have hij : i = j := Except.ok.inj ((decode_of_standsFor hm hi).symm.trans (decode_of_standsFor hm hj))
    exact pattern_eq_of_mnemonic hp hq (by rw [← hip, ← hjq, hij])

/-- Settles O4: the word of an instruction re-encodes to itself; and a matching word with the unused bits cleared is the
word of the instruction it stands for. -/
theorem unusedFieldsAreIgnored : Obligations.UnusedFieldsAreIgnored := by
  refine ⟨fun m i p hp hname => ?_, fun w s hm p hp hmatch => ?_⟩
  · obtain ⟨j, hj, hji, hencode, -⟩ := standsFor_encode m i
    obtain ⟨q, hq, hqj, -, hclear⟩ := hj.row
    obtain rfl := pattern_eq_of_mnemonic hp hq (by rw [hname, hqj, hji])
    rw [← hencode, hclear]
    simp [BitVec.and_assoc]
  · obtain ⟨i, hi, hip⟩ := standsFor_of_match hp hmatch
    obtain ⟨q, hq, hqi, -, hclear⟩ := hi.row
    obtain rfl := pattern_eq_of_mnemonic hp hq (by rw [hqi, hip])
    have hword : decode s.config.opcodes w = .ok i := decode_of_standsFor hm hi
    have hcleared : decode s.config.opcodes (w &&& ~~~p.unused) = .ok i :=
      hclear ▸ encodeThenDecodeGivesInstruction _ i hm hi.wf
    exact ⟨hword.trans hcleared.symm,
      (Machine.executeWord_of_decode hword).trans (Machine.executeWord_of_decode hcleared).symm⟩

/-! ## Unsupported words (R95) -/

section Unsupported
variable {m : OpcodeMap} {w : Word}

/-- The R-type decoder rejects exactly the words whose funct is none of the eight. -/
theorem decodeRType_error_iff : (∃ e, decodeRType m w = .error e) ↔ functField w ∉ m.functs := by
  simp [decodeRType, exists_error_ite, OpcodeMap.functs]

/-- The decoder rejects exactly the words whose opcode is none of the eight, or is that of R-type with none of the eight
functs. -/
theorem decode_error_iff : (∃ e, decode m w = .error e) ↔
    opcodeField w ∉ m.opcodes ∨ (opcodeField w = m.special ∧ functField w ∉ m.functs) := by
  by_cases hop : opcodeField w = m.special
  · have hmem : m.special ∈ m.opcodes := List.mem_cons_self
    simp [decode, hop, hmem, decodeRType_error_iff]
  · simp [decode, hop, exists_error_ite, OpcodeMap.opcodes]

end Unsupported

end Sys2Proof

namespace Sys2Proof.Machine

/-! ## What the host sees of a step -/

section Steps
variable {s t : State}

/-- What the host sees of a step that answers a next state (R110). -/
theorem hostStep_of_next (hrun : s.finished = false) (h : step s = .next t) : hostStep s = (t, .ok) := by
  simp [hostStep, hrun, h, settleOutcome]

/-- What the host sees of a step that ends in an error: no change (R241). -/
theorem hostStep_of_fault {f : Fault} (hrun : s.finished = false) (h : step s = .fault f) :
    hostStep s = (s, .error f) := by
  simp [hostStep, hrun, h, settleOutcome]

end Steps

/-- Settles O5, from the words the decoder rejects. -/
theorem unsupportedWordIsAnError : Obligations.UnsupportedWordIsAnError := by
  refine ⟨fun m w => decode_error_iff, fun s w hrun hfetch hw => ?_, by decide, by decide, by decide⟩
  obtain ⟨e, he⟩ := decode_error_iff.2 hw
  have hstep : step s = .fault (.unsupportedInstruction w) := by
    simp [step, runCycle, executeWord, hrun, hfetch, he, raise]
  exact ⟨hstep, hostStep_of_fault hrun hstep⟩

/-- Settles O6, word by word. -/
theorem sampleWordsDecode : Obligations.SampleWordsDecode :=
  ⟨by decide, by decide, by decide, by decide⟩

/-- Settles O7: the zero word is a shift into register 0, whose write is discarded or is the step's error. -/
theorem zeroWordOnlyAdvancesPc : Obligations.ZeroWordOnlyAdvancesPc := by
  have hdecode : decode defaultOpcodes 0#32 = .ok (.sll 0 0 0) := by decide
  refine ⟨hdecode, fun s hmap hrun hfetch => ?_⟩
  have hstep : step s = commitReg 0 (readReg 0 s <<< 0) none s :=
    step_eq_exec (i := .sll 0 0 0) hrun hfetch (hmap ▸ hdecode)
  refine ⟨fun hpolicy => ?_, fun hpolicy => ?_⟩
  · have hnext : step s = .next { s with pc := s.pc + 4#32 } :=
      hstep.trans ((commitReg_next ..).2 ⟨(writeError_none ..).2 (.inr hpolicy), rfl⟩)
    exact ⟨hnext, hostStep_of_next hrun hnext⟩
  · have hfault : step s = .fault .zeroRegisterWrite :=
      hstep.trans ((commitReg_fault ..).2 ((writeError_some ..).2 ⟨rfl, rfl, hpolicy⟩))
    exact ⟨hfault, hostStep_of_fault hrun hfault⟩

/-! ## Immediates (R87) -/

section SignExtension
variable (v : BitVec 16)

/-- A field's number, modulo 2^32, is the sign extension of the field. -/
theorem immWord_toInt : immWord v.toInt = sext32 v := rfl

/-- Sign extension keeps the low 16 bits. -/
theorem extract_sext32 : (sext32 v).extractLsb' 0 16 = v := by
  ext k hk
  rw [BitVec.getElem_extractLsb', Nat.zero_add, sext32, BitVec.getLsbD_signExtend, if_pos hk, decide_eq_true (by omega),
    Bool.true_and, BitVec.getLsbD_eq_getElem hk]

/-- Sign extension copies bit 15 to every bit above it. -/
theorem getLsbD_sext32_high {k : Nat} (hk : 16 ≤ k) (hk' : k < 32) : (sext32 v).getLsbD k = v.getLsbD 15 := by
  rw [sext32, BitVec.getLsbD_signExtend, if_neg (by omega), decide_eq_true hk', Bool.true_and, BitVec.msb_eq_getLsbD_last]

/-- As a number, a sign-extended field is its two's complement value modulo 2^32. -/
theorem toNat_sext32 : ((sext32 v).toNat : Int) =
    (if v.toNat < 0x8000 then (v.toNat : Int) else v.toNat - 0x10000) % 2 ^ 32 := by
  have hnumber : v.toInt = if v.toNat < 0x8000 then (v.toNat : Int) else v.toNat - 0x10000 := by
    rw [BitVec.toInt_eq_toNat_cond]
    split_ifs <;> omega
  rw [← hnumber, ← immWord_toInt, immWord, BitVec.toNat_ofInt, Int.toNat_of_nonneg (Int.emod_nonneg _ (by decide))]
  rfl

end SignExtension

/-- Settles O60: the number is the low half of the word read in two's complement, and its word is the sign extension. -/
theorem immediatesAreSignExtended : Obligations.ImmediatesAreSignExtended := by
  intro m w i n h hn v
  have hfield : n = v.toInt := by
    obtain ⟨x, y, rfl | rfl | rfl | rfl | rfl⟩ := hn <;> cases standsFor_of_decode h <;> rfl
  rw [hfield, immWord_toInt]
  exact ⟨rfl, extract_sext32 v, fun k => getLsbD_sext32_high v, toNat_sext32 v⟩

end Sys2Proof.Machine
end

section
/-! SUPPORT. The binary-string form of a word, character by character. With it the statement about the form. -/

namespace Sys2Proof

/-- The character of a bit. -/
def charOfBit (b : Bool) : Char := if b then '1' else '0'

@[simp] theorem bitOfChar_charOfBit (b : Bool) : bitOfChar (charOfBit b) = some b := by cases b <;> rfl

/-- Different bits have different characters. -/
theorem charOfBit_injective : Function.Injective charOfBit := fun a b h =>
  Option.some.inj (by rw [← bitOfChar_charOfBit a, h, bitOfChar_charOfBit])

/-- A character stands for a bit when it is the character of that bit. -/
theorem bitOfChar_eq_some_iff {c : Char} {b : Bool} : bitOfChar c = some b ↔ c = charOfBit b := by
  refine ⟨fun h => ?_, fun h => h ▸ bitOfChar_charOfBit b⟩
  unfold bitOfChar at h
  split_ifs at h with h₀ h₁ <;> cases h
  exacts [h₀, h₁]

/-- Reading puts the bits of the characters below the value before them, the last character at bit 0. -/
theorem readBits_eq_some {cs : List Char} {acc n : Nat} (h : readBits acc cs = some n) :
    n / 2 ^ cs.length = acc ∧ ∀ k < cs.length, cs[k]? = some (charOfBit (n.testBit (cs.length - 1 - k))) := by
  induction cs generalizing acc with
  | nil => simpa [readBits, eq_comm] using h
  | cons c cs ih =>
    cases hc : bitOfChar c with
    | none => simp [readBits, hc] at h
    | some b =>
      obtain ⟨hdiv, hchars⟩ := ih (by simpa [readBits, hc] using h)
      refine ⟨?_, fun k hk => ?_⟩
      · rw [List.length_cons, Nat.pow_succ, ← Nat.div_div_eq_div_mul, hdiv]
        have := b.toNat_lt
        omega
      · cases k with
        | zero =>
          have hbit : n.testBit cs.length = b := by
            rw [Nat.testBit_eq_decide_div_mod_eq, hdiv]
            cases b <;> simp
          simpa [hbit] using bitOfChar_eq_some_iff.1 hc
        | succ k =>
          have e : (c :: cs).length - 1 - (k + 1) = cs.length - 1 - k := by simp; omega
          rw [List.getElem?_cons_succ, e]
          exact hchars k (by simpa using hk)

/-- A string of characters of bits can be read. -/
theorem readBits_map_charOfBit (bs : List Bool) (acc : Nat) : ∃ n, readBits acc (bs.map charOfBit) = some n := by
  induction bs generalizing acc with
  | nil => exact ⟨acc, rfl⟩
  | cons b bs ih => simpa [readBits] using ih (2 * acc + b.toNat)

section Word
variable {w : Word} {cs : List Char}

/-- A word's string is the characters of its bits, from bit 31 down. -/
theorem toBinaryString_eq_map (w : Word) :
    toBinaryString w = ((List.range 32).map fun k => w.getLsbD (31 - k)).map charOfBit := by
  rw [List.map_map]
  rfl

@[simp] theorem length_toBinaryString (w : Word) : (toBinaryString w).length = 32 := by simp [toBinaryString]

/-- Character `k` is bit `31 - k`. -/
theorem getElem?_toBinaryString (w : Word) {k : Nat} (hk : k < 32) :
    (toBinaryString w)[k]? = some (charOfBit (w.getLsbD (31 - k))) := by
  simp [toBinaryString, hk, charOfBit]

/-- A string that reads as a word has the word's bits as its characters. -/
theorem toBinaryString_of_ofBinaryString (h : ofBinaryString cs = some w) : toBinaryString w = cs := by
  unfold ofBinaryString at h
  split_ifs at h with hlen
  obtain ⟨n, hn, rfl⟩ := Option.map_eq_some_iff.1 h
  obtain ⟨-, hchars⟩ := readBits_eq_some hn
  refine List.ext_getElem? fun k => ?_
  by_cases hk : k < 32
  · rw [getElem?_toBinaryString _ hk, hchars k (by omega), hlen, BitVec.getLsbD_ofNat,
      decide_eq_true (by omega), Bool.true_and]
  · rw [List.getElem?_eq_none (by simp; omega), List.getElem?_eq_none (by omega)]

/-- Words with the same string are the same. -/
theorem toBinaryString_injective {v : Word} (h : toBinaryString v = toBinaryString w) : v = w := by
  refine BitVec.eq_of_getLsbD_eq fun k hk => ?_
  have hchar := getElem?_toBinaryString v (k := 31 - k) (by omega)
  rw [h, getElem?_toBinaryString w (by omega), Nat.sub_sub_self (by omega)] at hchar
  exact (charOfBit_injective (Option.some.inj hchar)).symm

/-- A word's string reads as the word. -/
theorem ofBinaryString_toBinaryString (w : Word) : ofBinaryString (toBinaryString w) = some w := by
  obtain ⟨n, hn⟩ := readBits_map_charOfBit ((List.range 32).map fun k => w.getLsbD (31 - k)) 0
  have hread : ofBinaryString (toBinaryString w) = some (BitVec.ofNat 32 n) := by
    rw [ofBinaryString, if_pos (length_toBinaryString w), toBinaryString_eq_map, hn]
    rfl
  rw [hread, toBinaryString_injective (toBinaryString_of_ofBinaryString hread)]

end Word

/-- Settles O8: the characters are the bits, and strings with the same characters are one. -/
theorem binaryStringIsTheWord : Obligations.BinaryStringIsTheWord :=
  ⟨fun w => ⟨length_toBinaryString w, ofBinaryString_toBinaryString w, fun _ => getElem?_toBinaryString w⟩,
    fun _ _ => toBinaryString_of_ofBinaryString⟩

end Sys2Proof
end

section
/-! SUPPORT. The phases of a step, one lemma each: the run state, the fetch, the word. With them the statements about the
execution cycle (40_execution_cycle.md). -/

namespace Sys2Proof.Machine

section Cycle
variable {s : State} {addr w : Word} {f : Fault} {r : Refusal}

/-! ## The run state (R111) -/

/-- A machine is finished when its PC, read unsigned, is at or above `END` (R8, R33). -/
theorem finished_iff : s.finished = true ↔ s.config.baseInstr.toNat + 4 * s.imem.length ≤ s.pc.toNat :=
  decide_eq_true_iff

theorem not_finished_iff : s.finished = false ↔ s.pc.toNat < s.config.baseInstr.toNat + 4 * s.imem.length := by
  rw [← Bool.not_eq_true, finished_iff, Nat.not_le]

/-! ## The fetch (R112, R53) -/

theorem iFetch_of_misaligned (h : addr.toNat % 4 ≠ 0) : iFetch addr s = .error (.fetchMisaligned addr) :=
  if_pos h

theorem iFetch_of_below_base (haligned : addr.toNat % 4 = 0) (h : addr.toNat < s.config.baseInstr.toNat) :
    iFetch addr s = .error (.fetchOutOfRange addr) := by
  rw [iFetch, if_neg (not_not.2 haligned), if_pos h]

/-- An aligned address from the base on fetches the word of the program at its index. -/
theorem iFetch_of_word (haligned : addr.toNat % 4 = 0) (hbase : s.config.baseInstr.toNat ≤ addr.toNat)
    (hw : s.imem[(addr.toNat - s.config.baseInstr.toNat) / 4]? = some w) : iFetch addr s = .ok w := by
  rw [iFetch, if_neg (not_not.2 haligned), if_neg (Nat.not_lt.2 hbase), hw]

/-- A fetch raises nothing but the two fetch errors, with the address. -/
theorem iFetch_error_cases (h : iFetch addr s = .error f) : f = .fetchMisaligned addr ∨ f = .fetchOutOfRange addr := by
  unfold iFetch at h
  split at h
  · exact .inl (Except.error.inj h).symm
  · split at h
    · exact .inr (Except.error.inj h).symm
    · split at h
      · cases h
      · exact .inr (Except.error.inj h).symm

/-! ## The step by what it fetches (R112 to R118) -/

/-- An error of the fetch ends the step (R241). -/
theorem step_of_fetch_error (hrun : s.finished = false) (h : iFetch s.pc s = .error f) : step s = .fault f := by
  simp [step, runCycle, hrun, h, raise]

/-- A fetched word is executed. -/
theorem step_of_fetch_ok (hrun : s.finished = false) (h : iFetch s.pc s = .ok w) : step s = executeWord w s := by
  simp [step, runCycle, hrun, h]

/-- A word that does not decode is an error (R95), and no instruction refuses. -/
theorem executeWord_ne_refused : executeWord w s ≠ .refused r := by
  unfold executeWord
  cases decode s.config.opcodes w with
  | error e => exact nofun
  | ok i => exact exec_ne_refused

/-- No step refuses (R119). -/
theorem step_ne_refused : step s ≠ .refused r := by
  cases hrun : s.finished with
  | true => simp [step_of_finished hrun]
  | false =>
    cases hfetch : iFetch s.pc s with
    | error f => simp [step_of_fetch_error hrun hfetch]
    | ok w =>
      rw [step_of_fetch_ok hrun hfetch]
      exact executeWord_ne_refused

/-! ## The errors of a step (R242) -/

/-- A fetch raises the errors of code 1 and 2. -/
theorem iFetch_error_code (h : iFetch addr s = .error f) : f.code = 1 ∨ f.code = 2 := by
  obtain rfl | rfl := iFetch_error_cases h
  · exact .inl rfl
  · exact .inr rfl

/-- The tests of a data access raise the errors of code 4 and 5. -/
theorem dataError_code {c : Config} (h : dataError c addr = some f) : f.code = 4 ∨ f.code = 5 := by
  obtain ⟨rfl, -⟩ | ⟨rfl, -⟩ := dataError_cases h
  · exact .inl rfl
  · exact .inr rfl

/-- A step raises the errors of code 1 and 2 in its fetch, 3 in its decoder, 4 and 5 in its data access, and under
`ZERO_WRITE = fail` that of its register write (log 4). -/
theorem step_fault_code (h : step s = .fault f) :
    (1 ≤ f.code ∧ f.code ≤ 5) ∨ (f = .zeroRegisterWrite ∧ s.config.zeroWrite = .fail) := by
  obtain ⟨-, hfetch | ⟨w, -, ⟨-, rfl⟩ | ⟨i, -, hexec⟩⟩⟩ := step_fault_cases h
  · have := iFetch_error_code hfetch
    exact .inl (by omega)
  · exact .inl (by simp [Fault.code])
  · obtain ⟨rt, offset, rs, -, hdata⟩ | ⟨hf, hpolicy, -, -⟩ := exec_fault hexec
    · have := dataError_code hdata
      exact .inl (by omega)
    · exact .inr ⟨hf, hpolicy⟩

end Cycle

/-- Settles O36: the run state decides first, then the tests of the fetch in their order; an aligned PC between the base and
`END` has a word of the program. -/
theorem stepJudgesThePc : Obligations.StepJudgesThePc := by
  intro s
  dsimp only
  refine ⟨fun hend => ?_, not_finished_iff.2, fun hrun halign => ?_, fun hrun halign hbase => ?_, fun hrun halign hbase => ?_⟩
  · have hfinished : s.finished = true := finished_iff.2 hend
    exact ⟨step_of_finished hfinished, if_pos hfinished, hfinished⟩
  · exact step_of_fetch_error (not_finished_iff.2 hrun) (iFetch_of_misaligned halign)
  · exact step_of_fetch_error (not_finished_iff.2 hrun) (iFetch_of_below_base halign hbase)
  · have hindex : (s.pc.toNat - s.config.baseInstr.toNat) / 4 < s.imem.length := by omega
    have hword := List.getElem?_eq_getElem hindex
    exact ⟨_, hword, step_of_fetch_ok (not_finished_iff.2 hrun) (iFetch_of_word halign hbase hword)⟩

/-- Settles O38: a step that answers no next state ends in an error, and its errors have these codes. -/
theorem stepIsTotal : Obligations.StepIsTotal := by
  intro s
  cases hstep : step s with
  | next t => exact .inl ⟨t, rfl⟩
  | fault f => exact .inr ⟨f, rfl, step_fault_code hstep⟩
  | refused r => exact absurd hstep step_ne_refused

/-- Settles O35, from the rule of a step that gets as far as an instruction. -/
theorem stepRunsDecodedInstruction : Obligations.StepRunsDecodedInstruction :=
  fun _ _ _ => step_eq_exec

end Sys2Proof.Machine
end

section
/-! SUPPORT. What a step that writes one register does to the state, with its error, and the numbers the results of the
family stand for. With them the statements about arithmetic, logic, compare and shift (41_rtype_alu.md). -/

namespace Sys2Proof.Machine

/-! ## A step that writes one register (R24, R130) -/

section RegisterWrite
variable {s : State} {r : Reg}

/-- Where its write is allowed, a step that writes a register completes: the register reads as the value, register 0 as
zero, the PC is that of phase 5, and nothing else changes. -/
theorem commitReg_of_allowed (h : writeAllowed r s) (v : Word) (e : Option Word) :
    ∃ t, commitReg r v e s = .next t ∧ readReg r t = (if r = 0 then 0#32 else v) ∧ t.pc = e.getD (s.pc + 4#32) ∧
      registersKept [r] s t ∧ dataKept s t ∧ programKept s t := by
  refine ⟨_, (commitReg_next ..).2 ⟨(writeError_none ..).2 h, rfl⟩, readReg_writeReg_same .., by simp,
    fun k hk => ?_, fun a => by simp, writeReg_imem .., writeReg_config ..⟩
  exact readReg_writeReg_other s r k v (List.mem_singleton.not.1 hk)

/-- Where its write is not allowed, a step that writes a register ends in the error of that write (log 4). -/
theorem commitReg_of_not_allowed {v : Word} {e : Option Word} (h : ¬writeAllowed r s) :
    commitReg r v e s = .fault .zeroRegisterWrite := by
  cases herror : writeError r s with
  | none => exact absurd ((writeError_none ..).1 herror) h
  | some f =>
    obtain ⟨rfl, -, -⟩ := (writeError_some ..).1 herror
    exact (commitReg_fault ..).2 herror

end RegisterWrite

/-! ## The results as numbers (R10, R131, R137) -/

/-- The difference of two words is the exact difference modulo 2^32. -/
theorem toNat_word_sub (a b : Word) : ((a - b).toNat : Int) = ((a.toNat : Int) - b.toNat) % 2 ^ 32 := by
  rw [BitVec.toNat_sub]
  omega

/-- The word of a signed comparison is 1 or 0. -/
theorem toNat_conditionWord_signedLess (a b : Word) :
    (conditionWord (signedLess a b)).toNat = if a.toInt < b.toInt then 1 else 0 := by
  by_cases h : a.toInt < b.toInt <;> simp [conditionWord, signedLess, h]

/-! ## The words of the family (R82, R92) -/

/-- The default map decodes the word of an instruction whose operands fit. -/
theorem decode_encode_defaultOpcodes {i : Instr} (h : i.wf = true) :
    decode defaultOpcodes (encode defaultOpcodes i) = .ok i :=
  encodeThenDecodeGivesInstruction defaultOpcodes i defaultOpcodes_legal h

/-- The word of a shift, from its 5-bit field. -/
theorem encodeRType_shamt_field (m : OpcodeMap) (rs rt rd : Reg) (shamt : BitVec 5) (funct : BitVec 6) :
    encodeRType m rs rt rd shamt.toNat funct =
      m.special ++ regBits rs ++ regBits rt ++ regBits rd ++ shamt ++ funct := by
  rw [encodeRType, BitVec.ofNat_toNat, BitVec.setWidth_eq]

/-! ## The statements -/

/-- Settles O13: the word is the encoding of `add`, and the register written reads as the sum modulo 2^32. -/
theorem addWritesWrappedSum : Obligations.AddWritesWrappedSum := by
  intro rd rs rt s
  refine ⟨decode_encode_defaultOpcodes (i := .add rd rs rt) rfl, fun hallowed => ?_, commitReg_of_not_allowed⟩
  obtain ⟨t, hexec, hresult, hframe⟩ := commitReg_of_allowed hallowed (readReg rs s + readReg rt s) none
  refine ⟨t, hexec, ?_, hframe⟩
  rw [hresult, apply_ite BitVec.toNat, BitVec.toNat_zero, BitVec.toNat_add]

/-- Settles O14: the word is the encoding of `sub`, and the register written reads as the difference modulo 2^32. -/
theorem subWritesWrappedDifference : Obligations.SubWritesWrappedDifference := by
  intro rd rs rt s
  refine ⟨decode_encode_defaultOpcodes (i := .sub rd rs rt) rfl, fun hallowed => ?_, commitReg_of_not_allowed⟩
  obtain ⟨t, hexec, hresult, hframe⟩ := commitReg_of_allowed hallowed (readReg rs s - readReg rt s) none
  refine ⟨t, hexec, ?_, hframe⟩
  rw [hresult, ← toNat_word_sub]
  split <;> rfl

/-- Settles O15: the word is the encoding of `and`, and the result is compared bit by bit. -/
theorem andWritesBitwiseAnd : Obligations.AndWritesBitwiseAnd := by
  intro rd rs rt s
  refine ⟨decode_encode_defaultOpcodes (i := .and rd rs rt) rfl, fun hallowed => ?_, commitReg_of_not_allowed⟩
  obtain ⟨t, hexec, hresult, hframe⟩ := commitReg_of_allowed hallowed (readReg rs s &&& readReg rt s) none
  refine ⟨t, hexec, fun k => ?_, hframe⟩
  rw [hresult, ← BitVec.getLsbD_and]
  by_cases hrd : rd = 0 <;> simp [hrd]

/-- Settles O16: the word is the encoding of `or`, and the result is compared bit by bit. -/
theorem orWritesBitwiseOr : Obligations.OrWritesBitwiseOr := by
  intro rd rs rt s
  refine ⟨decode_encode_defaultOpcodes (i := .or rd rs rt) rfl, fun hallowed => ?_, commitReg_of_not_allowed⟩
  obtain ⟨t, hexec, hresult, hframe⟩ := commitReg_of_allowed hallowed (readReg rs s ||| readReg rt s) none
  refine ⟨t, hexec, fun k => ?_, hframe⟩
  rw [hresult, ← BitVec.getLsbD_or]
  by_cases hrd : rd = 0 <;> simp [hrd]

/-- Settles O17: the word is the encoding of `slt`, and the result is the word of the signed comparison. -/
theorem sltWritesSignedComparison : Obligations.SltWritesSignedComparison := by
  intro rd rs rt s
  refine ⟨decode_encode_defaultOpcodes (i := .slt rd rs rt) rfl, fun hallowed => ?_, commitReg_of_not_allowed⟩
  obtain ⟨t, hexec, hresult, hframe⟩ :=
    commitReg_of_allowed hallowed (conditionWord (signedLess (readReg rs s) (readReg rt s))) none
  refine ⟨t, hexec, ?_, hframe⟩
  rw [hresult, apply_ite BitVec.toNat, toNat_conditionWord_signedLess]
  by_cases hrd : rd = 0 <;> simp [hrd]

/-- Settles O18: the word is the encoding of `sll` with the field as amount, and a left shift multiplies modulo 2^32. -/
theorem sllShiftsLeftByField : Obligations.SllShiftsLeftByField := by
  intro rd rt shamt s
  have hdecode := decode_encode_defaultOpcodes (i := .sll rd rt shamt.toNat) (shamtFits_field shamt)
  rw [encode, encodeRType_shamt_field] at hdecode
  refine ⟨hdecode, fun hallowed => ?_, commitReg_of_not_allowed⟩
  obtain ⟨t, hexec, hresult, hframe⟩ := commitReg_of_allowed hallowed (readReg rt s <<< shamt.toNat) none
  refine ⟨t, hexec, ?_, hframe⟩
  rw [hresult, apply_ite BitVec.toNat, BitVec.toNat_zero, BitVec.toNat_shiftLeft, Nat.shiftLeft_eq]

/-- Settles O19: the word is the encoding of `srl` with the field as amount, and a right shift divides. -/
theorem srlShiftsRightUnsigned : Obligations.SrlShiftsRightUnsigned := by
  intro rd rt shamt s
  have hdecode := decode_encode_defaultOpcodes (i := .srl rd rt shamt.toNat) (shamtFits_field shamt)
  rw [encode, encodeRType_shamt_field] at hdecode
  refine ⟨hdecode, fun hallowed => ?_, commitReg_of_not_allowed⟩
  obtain ⟨t, hexec, hresult, hframe⟩ := commitReg_of_allowed hallowed (readReg rt s >>> shamt.toNat) none
  refine ⟨t, hexec, ?_, hframe⟩
  rw [hresult, apply_ite BitVec.toNat, BitVec.toNat_zero, BitVec.toNat_ushiftRight, Nat.shiftRight_eq_div_pow]

end Sys2Proof.Machine
end

section
/-! SUPPORT. Immediates as numbers, the slot a data address names, and what a store does to the slots. With them the
statements about `addi`, `lw` and `sw` (42_immediate_memory.md). -/

namespace Sys2Proof.Machine

/-! ## Immediates and effective addresses as numbers (R87, R131, R152) -/

/-- The word of an immediate is its number modulo 2^32. -/
theorem toNat_immWord (n : Int) : ((immWord n).toNat : Int) = n % 2 ^ 32 := by
  rw [immWord, BitVec.toNat_ofInt, Int.toNat_of_nonneg (Int.emod_nonneg _ (by decide))]
  rfl

/-- Adding an immediate gives the exact sum modulo 2^32. -/
theorem toNat_add_immWord (a : Word) (n : Int) : ((a + immWord n).toNat : Int) = (a.toNat + n) % 2 ^ 32 := by
  rw [BitVec.toNat_add, Int.natCast_emod, Int.natCast_add, toNat_immWord]
  exact Int.add_emod_emod ..

/-- Settles O21: the difference of two words is exact modulo 2^32, and so is the word of the offset. -/
theorem effectiveAddressSubtractsOffset : Obligations.EffectiveAddressSubtractsOffset := by
  intro offset rs s
  rw [effectiveAddress, toNat_word_sub, toNat_immWord]
  exact Int.sub_emod_emod ..

/-- The address of a load or store, from its 16-bit offset field (R152). -/
theorem effectiveAddress_toInt (offset : BitVec 16) (rs : Reg) (s : State) :
    effectiveAddress offset.toInt rs s = readReg rs s - sext32 offset := rfl

/-! ## The words of the family, and `addi` (R83, R151) -/

/-- The default map decodes an I-type word, written out with its 16-bit field, to the instruction it encodes (R83). -/
theorem decode_iType_field {i : Instr} {opcode : BitVec 6} {rs rt : Reg} {imm : BitVec 16} (hwf : i.wf = true)
    (hi : encode defaultOpcodes i = encodeIType opcode rs rt imm.toInt) :
    decode defaultOpcodes (opcode ++ regBits rs ++ regBits rt ++ imm) = .ok i := by
  rw [encodeIType, BitVec.ofInt_toInt] at hi
  exact hi ▸ decode_encode_defaultOpcodes hwf

/-- Settles O20: the word is the encoding of `addi`, and the register written reads as the sum modulo 2^32. -/
theorem addiAddsSignedImmediate : Obligations.AddiAddsSignedImmediate := by
  intro rt rs imm s
  refine ⟨decode_iType_field (imm16Fits_field imm) rfl, immWord_toInt imm, fun hallowed => ?_, commitReg_of_not_allowed⟩
  obtain ⟨t, hexec, hresult, hframe⟩ := commitReg_of_allowed hallowed (readReg rs s + immWord imm.toInt) none
  refine ⟨t, hexec, ?_, hframe⟩
  rw [hresult, ← toNat_add_immWord]
  split <;> rfl

/-! ## The slot of a data address (R52, R55) -/

section Slot
variable {c : Config} {addr : Word} {k : Nat}

/-- The distance of an address below the base is the wrapped difference of the two words (R55). -/
theorem dataDistance_eq_toNat_sub (c : Config) (addr : Word) : dataDistance c addr = (c.baseData - addr).toNat := by
  rw [dataDistance, BitVec.toNat_sub]
  split <;> omega

/-- Slot `k` lies `4 * k` below the base. -/
theorem dataDistance_slotAddress (hc : c.legal = true) (hk : k < c.dmemWords) :
    dataDistance c (slotAddress c k) = 4 * k := by
  have := legal_dmemWords hc
  rw [dataDistance_eq hc, slotAddress_toNat hc hk]
  omega

/-- A legal address is that of the one slot its distance names. -/
theorem slotAddress_eq_iff (hc : c.legal = true) (hk : k < c.dmemWords) (haddr : dataError c addr = none) :
    slotAddress c k = addr ↔ k = dataDistance c addr / 4 := by
  obtain ⟨j, hj, rfl⟩ := exists_slot_of_legal hc haddr
  rw [dataDistance_slotAddress hc hj, Nat.mul_div_cancel_left j four_pos]
  refine ⟨fun h => ?_, fun h => h ▸ rfl⟩
  have hdistance := congrArg (dataDistance c) h
  rw [dataDistance_slotAddress hc hk, dataDistance_slotAddress hc hj] at hdistance
  omega

end Slot

/-! ## `lw` -/

/-- A load from a legal address is the register write of the word of the slot its distance names (R57, R153). -/
theorem exec_lw_of_legal {rt rs : Reg} {offset : Int} {s : State} (hc : s.config.legal = true)
    (haddr : dataError s.config (effectiveAddress offset rs s) = none) :
    exec (.lw rt offset rs) s =
      commitReg rt (slotWord (dataDistance s.config (effectiveAddress offset rs s) / 4) s) none s := by
  have hk := (dataError_none.1 haddr).2
  exact exec_lw_of_slot hc hk ((slotAddress_eq_iff hc hk haddr).2 rfl).symm

/-- Settles O23: from a legal address the load is a register write, from another the error of the address. -/
theorem lwLoadsTheSlot : Obligations.LwLoadsTheSlot := by
  intro rt rs offset s hc
  dsimp only
  rw [← effectiveAddress_toInt, ← dataDistance_eq_toNat_sub]
  refine ⟨decode_iType_field (imm16Fits_field offset) rfl, fun hstride hrange hallowed => ?_,
    fun hstride hrange hnot => ?_,
    fun h => execLw_of_error (dataError_eq_misaligned.2 h),
    fun hstride hrange => execLw_of_error (dataError_eq_outOfRange.2 ⟨hstride, hrange⟩)⟩
  · rw [exec_lw_of_legal hc (dataError_none.2 ⟨hstride, hrange⟩)]
    exact commitReg_of_allowed hallowed ..
  · rw [exec_lw_of_legal hc (dataError_none.2 ⟨hstride, hrange⟩)]
    exact commitReg_of_not_allowed hnot

/-! ## `sw` -/

/-- The state a store to a legal address answers: its cells replaced, and `pc + 4` (R58, R154). -/
def afterStore (addr v : Word) (s : State) : State :=
  advancePc none { s with dmem := s.dmem.writeWord (wordCells addr) v }

section Store
variable {s : State} {addr v : Word}

theorem exec_sw_of_legal {rt rs : Reg} {offset : Int} (h : dataError s.config (effectiveAddress offset rs s) = none) :
    exec (.sw rt offset rs) s = .next (afterStore (effectiveAddress offset rs s) (readReg rt s) s) :=
  execSw_of_legal h

variable (hc : s.config.legal = true) (haddr : dataError s.config addr = none)
include hc haddr

/-- The slot of the address holds the value stored, every other slot what it held. -/
theorem slotWord_afterStore {k : Nat} (hk : k < s.config.dmemWords) :
    slotWord k (afterStore addr v s) = if k = dataDistance s.config addr / 4 then v else slotWord k s := by
  rw [slotWord_of_store (t := afterStore addr v s) hc hk haddr rfl rfl]
  simp only [slotAddress_eq_iff hc hk haddr]

/-- Only the four cells up to the address change (log 1). -/
theorem readByte_afterStore {a : Nat} (ha : a + 3 < addr.toNat ∨ addr.toNat < a) :
    (afterStore addr v s).dmem.readByte a = s.dmem.readByte a := by
  have := wordCells_add_three hc haddr
  exact Memory.readByte_writeWord_ne _ _ _ _ (by omega)

end Store

/-- Settles O24: the stored slot is the one the distance of the address names, and the rest is the frame of a store. -/
theorem swStoresTheSlot : Obligations.SwStoresTheSlot := by
  intro rt rs offset s hc
  dsimp only
  rw [← effectiveAddress_toInt, ← dataDistance_eq_toNat_sub]
  refine ⟨decode_iType_field (imm16Fits_field offset) rfl, fun hstride hrange => ?_,
    fun h => execSw_of_error (dataError_eq_misaligned.2 h),
    fun hstride hrange => execSw_of_error (dataError_eq_outOfRange.2 ⟨hstride, hrange⟩)⟩
  have haddr := dataError_none.2 ⟨hstride, hrange⟩
  refine ⟨_, exec_sw_of_legal haddr, ?_, fun k hk hne => ?_, fun a => readByte_afterStore hc haddr, rfl, fun r _ => rfl,
    rfl, rfl⟩
  · rw [slotWord_afterStore hc haddr hrange, if_pos rfl]
  · rw [slotWord_afterStore hc haddr hk, if_neg hne]

end Sys2Proof.Machine
end

section
/-! SUPPORT. What a step that only sets the PC does, the targets of branches and jumps as numbers, and what keeps an
address a multiple of 4. With them the statements about branches and jumps (43_control_transfer.md). -/

namespace Sys2Proof.Machine

/-! ## Steps that set the PC (R115, R116) -/

section Completion
variable (s : State)

/-- A step with nothing to write completes: the PC is that of phase 5, and nothing else changes. -/
theorem commit_completes (e : Option Word) :
    ∃ t, commit e s = .next t ∧ t.pc = e.getD (s.pc + 4#32) ∧ registersKept [] s t ∧ dataKept s t ∧ programKept s t :=
  ⟨_, rfl, rfl, fun _ _ => rfl, fun _ => rfl, rfl, rfl⟩

/-- A `jal` completes under either policy for register 0, since it writes register 31 (R176). -/
theorem exec_jal_completes (target : Nat) :
    ∃ t, exec (.jal target) s = .next t ∧ readReg 31 t = nextPc s ∧ t.pc = jumpTarget target s ∧
      registersKept [31] s t ∧ dataKept s t ∧ programKept s t := by
  have hra : (31 : Reg) ≠ 0 := by decide
  obtain ⟨t, hexec, hlink, hframe⟩ := commitReg_of_allowed (.inl hra) (nextPc s) (some (jumpTarget target s))
  exact ⟨t, hexec, hlink.trans (if_neg hra), hframe⟩

end Completion

/-! ## The targets as numbers (R172, R175) -/

section Targets
variable (s : State)

theorem toNat_nextPc : (nextPc s).toNat = (s.pc.toNat + 4) % 2 ^ 32 :=
  BitVec.toNat_add ..

/-- The target of a branch is the exact sum modulo 2^32. -/
theorem toNat_branchTarget (disp : Int) :
    ((branchTarget disp s).toNat : Int) = (s.pc.toNat + 4 + disp * 4) % 2 ^ 32 := by
  have hsum := toNat_add_immWord (nextPc s) (disp * 4)
  rw [toNat_nextPc] at hsum
  rw [branchTarget_eq]
  refine hsum.trans ?_
  omega

/-- The mask of a jump leaves the top four bits. -/
theorem and_upper_mask (w : Word) : w &&& 0xF0000000#32 = w >>> 28 <<< 28 := by
  rw [BitVec.shiftLeft_ushiftRight]
  rfl

/-- A jump keeps the top four bits of its own address, and its field fills the bits below. -/
theorem toNat_jumpTarget {target : Nat} (hfits : targetFits target = true) :
    (jumpTarget target s).toNat = s.pc.toNat / 2 ^ 28 * 2 ^ 28 + target * 4 := by
  have hpc := s.pc.isLt
  have htarget : target < 2 ^ 26 := of_decide_eq_true hfits
  have hupper : (s.pc &&& 0xF0000000#32).toNat = 2 ^ 28 * (s.pc.toNat / 2 ^ 28) := by
    rw [and_upper_mask, BitVec.toNat_shiftLeft, BitVec.toNat_ushiftRight, Nat.shiftRight_eq_div_pow, Nat.shiftLeft_eq]
    omega
  have hlower : (BitVec.ofNat 32 (4 * target)).toNat = 4 * target := by
    rw [BitVec.toNat_ofNat]
    omega
  rw [jumpTarget_eq, BitVec.toNat_or, hupper, hlower, ← Nat.two_pow_add_eq_or_of_lt (by omega)]
  omega

end Targets

/-! ## The words of the family (R84, R94) -/

/-- The default map decodes a J-type word, written out with its 26-bit field, to the instruction it encodes (R84). -/
theorem decode_jType_field {i : Instr} {opcode : BitVec 6} {target : BitVec 26} (hwf : i.wf = true)
    (hi : encode defaultOpcodes i = encodeJType opcode target.toNat) :
    decode defaultOpcodes (opcode ++ target) = .ok i := by
  rw [encodeJType, BitVec.ofNat_toNat, BitVec.setWidth_eq] at hi
  exact hi ▸ decode_encode_defaultOpcodes hwf

/-- An R-type word with the funct of `jr` is a `jr` of its field `rs`, whatever its other fields hold (R94, log 10). -/
theorem decode_jr_of_fields (rs rt rd : Reg) (shamt : Nat) :
    decode defaultOpcodes (encodeRType defaultOpcodes rs rt rd shamt defaultOpcodes.jr) = .ok (.jr rs) := by
  have h := StandsFor.jr (opcodeField_encodeRType defaultOpcodes defaultOpcodes.jr rs rt rd shamt)
    (functField_encodeRType ..)
  rw [rsField_encodeRType] at h
  exact decode_of_standsFor defaultOpcodes_legal h

/-! ## Branches -/

theorem wordsEqual_eq_decide (a b : Word) : wordsEqual a b = decide (a = b) := rfl

/-- A branch completes: the PC goes to the target or to `pc + 4`, and nothing else changes. -/
theorem branchIf_completes (taken : Bool) (disp : Int) (s : State) :
    ∃ t, branchIf taken disp s = .next t ∧
      (t.pc.toNat : Int) = (if taken then (s.pc.toNat + 4 + disp * 4 : Int) else s.pc.toNat + 4) % 2 ^ 32 ∧
      registersKept [] s t ∧ dataKept s t ∧ programKept s t := by
  obtain ⟨t, hexec, hpc, hframe⟩ := commit_completes s (if taken then some (branchTarget disp s) else none)
  refine ⟨t, hexec, ?_, hframe⟩
  rw [hpc]
  cases taken with
  | true => exact toNat_branchTarget s disp
  | false => exact congrArg Nat.cast (toNat_nextPc s)

/-- Settles O28: the word is the encoding of `beq`, a branch taken on equality. -/
theorem beqBranchesWhenEqual : Obligations.BeqBranchesWhenEqual := by
  intro rs rt imm s
  refine ⟨decode_iType_field (imm16Fits_field imm) rfl, ?_⟩
  obtain ⟨t, hexec, hpc, hframe⟩ := branchIf_completes (wordsEqual (readReg rs s) (readReg rt s)) imm.toInt s
  refine ⟨t, hexec, ?_, hframe⟩
  simpa only [wordsEqual_eq_decide, decide_eq_true_eq] using hpc

/-- Settles O29: the word is the encoding of `bne`, a branch taken on difference. -/
theorem bneBranchesWhenDifferent : Obligations.BneBranchesWhenDifferent := by
  intro rs rt imm s
  refine ⟨decode_iType_field (imm16Fits_field imm) rfl, ?_⟩
  obtain ⟨t, hexec, hpc, hframe⟩ := branchIf_completes (!wordsEqual (readReg rs s) (readReg rt s)) imm.toInt s
  refine ⟨t, hexec, ?_, hframe⟩
  simpa only [wordsEqual_eq_decide, Bool.not_eq_true', decide_eq_false_iff_not, ite_not] using hpc

/-! ## Jumps -/

/-- Settles O30: the word is the encoding of `j`, whose target is the one as a number. -/
theorem jumpTargetKeepsUpperBits : Obligations.JumpTargetKeepsUpperBits := by
  intro target s
  refine ⟨decode_jType_field (targetFits_field target) rfl, ?_⟩
  obtain ⟨t, hexec, hpc, hframe⟩ := commit_completes s (some (jumpTarget target.toNat s))
  exact ⟨t, hexec, hpc ▸ toNat_jumpTarget s (targetFits_field target), hframe⟩

/-- Settles O31: the word is the encoding of `jal`, and link and target are taken from the old PC. -/
theorem jalLinksNextAddress : Obligations.JalLinksNextAddress := by
  intro target s
  refine ⟨decode_jType_field (targetFits_field target) rfl, ?_⟩
  obtain ⟨t, hexec, hlink, hpc, hframe⟩ := exec_jal_completes s target.toNat
  exact ⟨t, hexec, hlink ▸ toNat_nextPc s, hpc ▸ toNat_jumpTarget s (targetFits_field target), hframe⟩

/-- Settles O32: the word is an R-type word with the funct of `jr`, which sets the PC and nothing else. -/
theorem jrCopiesRegisterToPc : Obligations.JrCopiesRegisterToPc := by
  intro rs rt rd shamt s
  have hdecode := decode_jr_of_fields rs rt.toFin rd.toFin shamt.toNat
  rw [encodeRType_shamt_field, regBits_toFin, regBits_toFin] at hdecode
  exact ⟨hdecode, commit_completes s (some (readReg rs s))⟩

/-- Settles O33: the link the call leaves in register 31 is what the return copies to the PC. -/
theorem jrReturnsAfterJal : Obligations.JrReturnsAfterJal := by
  intro target s t u hcall hkept
  obtain ⟨t', hexec, hlink, -⟩ := exec_jal_completes s target
  obtain rfl : t' = t := Host.Outcome.next.inj (hexec.symm.trans hcall)
  obtain ⟨v, hreturn, hpc, -⟩ := commit_completes u (some (readReg 31 u))
  exact ⟨v, hreturn, hpc.trans (hkept.trans hlink)⟩

/-! ## Round trips (R180) -/

section RoundTrip
variable {s : State}

/-- The displacement between two instructions is the difference of their indices, counted from the instruction after the
branch (R89). -/
theorem branchDisplacement_instructionAddress (c : Config) (i k : Nat) :
    branchDisplacement (instructionAddress c k) (instructionAddress c i) = (k : Int) - (i + 1) := by
  simp only [branchDisplacement, instructionAddress]
  omega

/-- A branch at index `i` with the displacement to index `k` has the address of index `k` as its target. -/
theorem branchTarget_of_index {i k : Nat} {base : Word} (hpc : s.pc = base + BitVec.ofNat 32 (4 * i)) :
    branchTarget ((k : Int) - (i + 1)) s = base + BitVec.ofNat 32 (4 * k) := by
  have htarget := toNat_branchTarget s ((k : Int) - (i + 1))
  rw [hpc, BitVec.toNat_add, BitVec.toNat_ofNat] at htarget
  apply BitVec.eq_of_toNat_eq
  rw [BitVec.toNat_add, BitVec.toNat_ofNat]
  omega

/-- A branch that is taken goes to its target. -/
theorem branchIf_taken {taken : Bool} (h : taken = true) (disp : Int) (s : State) :
    ∃ t, branchIf taken disp s = .next t ∧ t.pc = branchTarget disp s := by
  subst h
  exact ⟨_, rfl, rfl⟩

/-- The field of a jump fits its 26 bits. -/
theorem targetFits_jumpField (a : Nat) : targetFits (jumpField a) = true :=
  decide_eq_true (Nat.mod_lt _ (by decide))

/-- A jump with the field made from a multiple of 4 in its own 256 MiB region goes there (R90). -/
theorem jumpTarget_jumpField {a : Word} (halign : a.toNat % 4 = 0) (hregion : a.extractLsb' 28 4 = s.pc.extractLsb' 28 4) :
    jumpTarget (jumpField a.toNat) s = a := by
  have hupper := congrArg BitVec.toNat hregion
  simp only [BitVec.extractLsb'_toNat, Nat.shiftRight_eq_div_pow] at hupper
  have ha := a.isLt
  have hpc := s.pc.isLt
  apply BitVec.eq_of_toNat_eq
  rw [toNat_jumpTarget s (targetFits_jumpField _), jumpField]
  omega

end RoundTrip

/-- Settles O34: operands that fit survive encode and decode, and the targets are the addresses the fields were made
from. -/
theorem branchAndJumpRoundTrip : Obligations.BranchAndJumpRoundTrip := by
  refine ⟨fun i k rs rt s => ?_, fun a s hm halign hregion => ?_⟩
  · intro disp hm hfits hpc
    have hdisp : disp = (k : Int) - (i + 1) := branchDisplacement_instructionAddress s.config i k
    have htarget : branchTarget disp s = s.config.baseInstr + BitVec.ofNat 32 (4 * k) :=
      hdisp ▸ branchTarget_of_index hpc
    refine ⟨hdisp, encodeThenDecodeGivesInstruction _ _ hm hfits, encodeThenDecodeGivesInstruction _ _ hm hfits,
      fun heq => ?_, fun hne => ?_⟩
    · rw [← htarget]
      exact branchIf_taken (by simp [wordsEqual, heq]) disp s
    · rw [← htarget]
      exact branchIf_taken (by simp [wordsEqual, hne]) disp s
  · have hfits := targetFits_jumpField a.toNat
    have htarget := jumpTarget_jumpField halign hregion
    obtain ⟨t, hexec, -, hpc, -⟩ := exec_jal_completes s (jumpField a.toNat)
    exact ⟨encodeThenDecodeGivesInstruction _ _ hm hfits, encodeThenDecodeGivesInstruction _ _ hm hfits,
      ⟨_, rfl, htarget⟩, t, hexec, hpc.trans htarget⟩

/-! ## Alignment of the PC (R171, R178) -/

section Alignment
variable {s : State}

theorem nextPc_aligned (h : s.pcAligned) : (nextPc s).toNat % 4 = 0 := by
  rw [toNat_nextPc]
  omega

theorem branchTarget_aligned (h : s.pcAligned) (disp : Int) : (branchTarget disp s).toNat % 4 = 0 := by
  have := toNat_branchTarget s disp
  omega

/-- The target of a jump is a multiple of 4 wherever the jump stands. -/
theorem jumpTarget_aligned {target : Nat} (h : targetFits target = true) : (jumpTarget target s).toNat % 4 = 0 := by
  rw [toNat_jumpTarget s h]
  omega

end Alignment

/-- Settles O39, instruction by instruction: every PC but that of a `jr` is `pc + 4` or a target. -/
theorem pcStaysAlignedUnlessJr : Obligations.PcStaysAlignedUnlessJr := by
  intro s t halign hstep hjr
  obtain ⟨-, rfl⟩ | ⟨w, i, hrun, hfetch, hdecode, -⟩ := step_next_cases hstep
  · exact halign
  · have hpc := (pcAfterEachStep s).2 w i t hrun hfetch hdecode hstep
    have hwf : i.wf = true := (standsFor_of_decode hdecode).wf
    have hnext := nextPc_aligned halign
    show t.pc.toNat % 4 = 0
    rw [hpc]
    cases i with
    | jr rs => exact absurd (nextInstr_of_decode hrun hfetch hdecode) (hjr rs)
    | j target | jal target =>
      dsimp only
      rw [← jumpTarget_eq]
      exact jumpTarget_aligned hwf
    | beq rs rt disp | bne rs rt disp =>
      have htarget := branchTarget_aligned halign disp
      rw [branchTarget_eq] at htarget
      dsimp only
      split <;> assumption
    | _ => exact hnext

end Sys2Proof.Machine
end

section
/-! SUPPORT. The text of a program: characters, lines, cleaned lines, label lines and tokens. -/

namespace Sys2Proof.Machine

/-! ## Classes of characters (R192, R194, R199) -/

section Characters
variable {c : Char}

theorem isBlank_iff : isBlank c = true ↔ c = ' ' ∨ c = '\t' ∨ c = '\r' := by
  simp [isBlank, or_assoc]

theorem isDigit_iff : c.isDigit = true ↔ '0' ≤ c ∧ c ≤ '9' := by
  simp [Char.isDigit, Char.le_def]

theorem isAlpha_iff : c.isAlpha = true ↔ ('a' ≤ c ∧ c ≤ 'z') ∨ ('A' ≤ c ∧ c ≤ 'Z') := by
  simp [Char.isAlpha, Char.isUpper, Char.isLower, Char.le_def, or_comm]

theorem isIdentStart_iff : isIdentStart c = true ↔ ('a' ≤ c ∧ c ≤ 'z') ∨ ('A' ≤ c ∧ c ≤ 'Z') ∨ c = '_' := by
  simp only [isIdentStart, Bool.or_eq_true, beq_iff_eq, isAlpha_iff, or_assoc]

theorem isIdentRest_iff : isIdentRest c = true ↔ isIdentStart c = true ∨ ('0' ≤ c ∧ c ≤ '9') := by
  simp only [isIdentRest, isIdentStart, Char.isAlphanum, Bool.or_eq_true, isDigit_iff, or_right_comm]

/-- No white space is a character of an identifier. -/
theorem not_isBlank_of_isIdentRest (h : isIdentRest c = true) : ¬isBlank c = true := by
  intro hblank
  obtain rfl | rfl | rfl := isBlank_iff.1 hblank <;> exact absurd h (by decide)

end Characters

/-! ## Splitting a list (R191, R199) -/

/-- The model's splitting is the library's. -/
theorem splitWhere_eq_splitOnP (p : Char → Bool) (cs : List Char) : splitWhere p cs = cs.splitOnP p := by
  induction cs with
  | nil => rfl
  | cons c cs ih =>
    rw [splitWhere, List.splitOnP_cons_eq_if_modifyHead, ih]
    cases hsplit : cs.splitOnP p with
    | nil => exact absurd hsplit (List.splitOnP_ne_nil p cs)
    | cons piece pieces => rfl

/-- The lines of a text are what was joined by line feeds (R191). -/
theorem splitWhere_intercalate {lines : List (List Char)} (hne : lines ≠ []) (hlines : ∀ line ∈ lines, '\n' ∉ line) :
    splitWhere (· == '\n') (List.intercalate ['\n'] lines) = lines := by
  rw [splitWhere_eq_splitOnP]
  exact List.splitOn_intercalate '\n' hlines hne

/-! ## Cleaned lines (R192) -/

/-- Dropping stops at the first element that is not dropped. -/
theorem dropWhile_append_of_head {p : Char → Bool} {front rest : List Char} (hfront : ∀ c ∈ front, p c = true)
    (hhead : ∀ c, rest.head? = some c → ¬p c = true) : (front ++ rest).dropWhile p = rest := by
  rw [List.dropWhile_append_of_pos hfront]
  cases rest with
  | nil => rfl
  | cons c cs => exact List.dropWhile_cons_of_neg (hhead c rfl)

section Cleaning
variable {left core right : List Char}

/-- Trimming takes the white space off both ends of what neither starts nor ends with it. -/
theorem trim_eq_core (hleft : ∀ c ∈ left, isBlank c = true) (hright : ∀ c ∈ right, isBlank c = true)
    (hhead : ∀ c, core.head? = some c → ¬isBlank c = true) (hlast : ∀ c, core.getLast? = some c → ¬isBlank c = true) :
    trim (left ++ core ++ right) = core := by
  cases core with
  | nil =>
    have hall : ∀ c ∈ left ++ [] ++ right, isBlank c = true := by simpa [or_imp, forall_and] using ⟨hleft, hright⟩
    rw [trim, List.dropWhile_eq_nil_iff.2 hall]
    rfl
  | cons c cs =>
    rw [trim, List.append_assoc, dropWhile_append_of_head (rest := c :: cs ++ right) hleft hhead, List.reverse_append,
      dropWhile_append_of_head (by simpa using hright) (by simpa only [List.head?_reverse] using hlast),
      List.reverse_reverse]

/-- Cleaning a line that has no comment trims it. -/
theorem cleanLine_of_no_comment {line : List Char} (h : '#' ∉ line) : cleanLine line = trim line := by
  rw [cleanLine, List.takeWhile_eq_self_iff.2 fun c hc => by simpa using ne_of_mem_of_not_mem hc h]

/-- Cleaning looks at nothing from the first `#` on. -/
theorem cleanLine_append_comment {line : List Char} (h : '#' ∉ line) (comment : List Char) :
    cleanLine (line ++ '#' :: comment) = trim line := by
  rw [cleanLine, List.takeWhile_append_of_pos fun c hc => by simpa using ne_of_mem_of_not_mem hc h]
  simp

end Cleaning

/-- Lines joined by line feeds, cleaned: the order and the numbers are those of the lines (R191). -/
theorem cleanedLines_intercalate {lines : List (List Char)} (hne : lines ≠ []) (hlines : ∀ line ∈ lines, '\n' ∉ line) :
    cleanedLines (List.intercalate ['\n'] lines) =
      ((lines.zipIdx 1).map fun x => (x.2, cleanLine x.1)).filter fun l => decide (l.2 ≠ []) := by
  rw [cleanedLines, splitWhere_intercalate hne hlines]
  exact List.filter_congr fun l _ => by cases l.2 <;> rfl

/-! ## Label lines (R193, R194) -/

section LabelLine
variable {line name : List Char}

theorem isIdent_iff : isIdent name = true ↔
    ∃ c rest, name = c :: rest ∧ isIdentStart c = true ∧ ∀ d ∈ rest, isIdentRest d = true := by
  cases name <;> simp [isIdent]

/-- An identifier holds no white space. -/
theorem not_isBlank_of_mem_isIdent (h : isIdent name = true) {c : Char} (hc : c ∈ name) : ¬isBlank c = true := by
  obtain ⟨start, rest, rfl, hstart, hrest⟩ := isIdent_iff.1 h
  obtain rfl | hc := List.mem_cons.1 hc
  · exact not_isBlank_of_isIdentRest (isIdentRest_iff.2 (.inl hstart))
  · exact not_isBlank_of_isIdentRest (hrest c hc)

/-- A label line is an identifier, white space, and a colon at its end (R193). -/
theorem labelOfLine_eq_some_iff : labelOfLine line = some name ↔
    isIdent name = true ∧ ∃ spaces : List Char, (∀ c ∈ spaces, isBlank c = true) ∧ line = name ++ spaces ++ [':'] := by
  constructor
  · intro h
    unfold labelOfLine at h
    split at h
    · next front hline =>
      obtain ⟨hident, hname⟩ := Option.ite_none_right_eq_some.1 h
      obtain rfl := Option.some.inj hname
      refine ⟨hident, (front.takeWhile isBlank).reverse, fun c hc => ?_, ?_⟩
      · exact List.mem_takeWhile_imp (List.mem_reverse.1 hc)
      · rw [← List.reverse_append, List.takeWhile_append_dropWhile, ← List.reverse_cons, ← hline, List.reverse_reverse]
    · cases h
  · rintro ⟨hident, spaces, hspaces, rfl⟩
    have hname : (spaces.reverse ++ name.reverse).dropWhile isBlank = name.reverse :=
      dropWhile_append_of_head (by simpa using hspaces) fun c hc =>
        not_isBlank_of_mem_isIdent hident (List.mem_reverse.1 (List.mem_of_head? hc))
    simp [labelOfLine, hname, hident]

theorem isInstructionLine_iff {line : Nat × List Char} : isInstructionLine line = true ↔ labelOfLine line.2 = none :=
  Option.isNone_iff_eq_none

end LabelLine

/-! ## Tokens (R199) -/

/-- What separates tokens: white space and commas. -/
def isSeparator (c : Char) : Bool := isBlank c || c == ','

theorem isSeparator_iff {c : Char} : isSeparator c = true ↔ c = ' ' ∨ c = '\t' ∨ c = '\r' ∨ c = ',' := by
  simp [isSeparator, isBlank, or_assoc]

section Tokens
variable {c : Char} {token rest : List Char}

theorem tokensOf_eq (line : List Char) : tokensOf line = (line.splitOnP isSeparator).filter fun t => !t.isEmpty :=
  congrArg _ (splitWhere_eq_splitOnP ..)

@[simp] theorem tokensOf_nil : tokensOf [] = [] := rfl

/-- A separator where a token could begin is skipped. -/
theorem tokensOf_separator_cons (hc : isSeparator c = true) (rest : List Char) : tokensOf (c :: rest) = tokensOf rest := by
  rw [tokensOf_eq, tokensOf_eq, List.splitOnP_cons_eq_if_modifyHead, if_pos hc]
  rfl

/-- A token reaches to the next separator or the end. -/
theorem tokensOf_token_append (hne : token ≠ []) (htoken : ∀ c ∈ token, isSeparator c = false)
    (hrest : ∀ c, rest.head? = some c → isSeparator c = true) : tokensOf (token ++ rest) = token :: tokensOf rest := by
  have htoken_kept (pieces : List (List Char)) :
      (token :: pieces).filter (fun t => !t.isEmpty) = token :: pieces.filter fun t => !t.isEmpty :=
    List.filter_cons_of_pos (by simpa using hne)
  cases rest with
  | nil => rw [List.append_nil, tokensOf_eq, List.splitOnP_eq_singleton htoken, htoken_kept]; rfl
  | cons c rest =>
    have hc := hrest c rfl
    rw [tokensOf_separator_cons hc, tokensOf_eq, tokensOf_eq,
      List.splitOnP_append_cons_of_forall_mem htoken c hc, htoken_kept]

end Tokens

end Sys2Proof.Machine
end

section
/-! SUPPORT. The two passes line by line: what pass 1 binds and where it stops, what pass 2 emits and where it stops. With
them the statements about lines, labels and the order of errors. -/

namespace Sys2Proof.Machine

/-! ## Pass 1, one line (R195, R197) -/

section PassOneLine
variable {c : Config} {line : Nat × List Char} {rest : List (Nat × List Char)} {k : Nat} {labels : LabelMap}
  {name : List Char}

theorem LabelMap.address_cons (name : List Char) (a : Nat) (labels : LabelMap) (n : List Char) :
    LabelMap.address ((name, a) :: labels) n = if n = name then some a else labels.address n := by
  rw [LabelMap.address, List.lookup_cons]
  by_cases h : n = name
  · simp [h]
  · rw [beq_false_of_ne h, if_neg h]
    rfl

/-- An instruction line counts. -/
theorem buildLabels_instruction (h : labelOfLine line.2 = none) :
    buildLabels c (line :: rest) k labels = buildLabels c rest (k + 1) labels := by
  rw [buildLabels, h]

/-- A new name is bound to the address of the next instruction. -/
theorem buildLabels_new (h : labelOfLine line.2 = some name) (hnew : labels.address name = none) :
    buildLabels c (line :: rest) k labels = buildLabels c rest k ((name, instructionAddress c k) :: labels) := by
  simp [buildLabels, h, hnew]

/-- A name in the map ends the pass. -/
theorem buildLabels_duplicate (h : labelOfLine line.2 = some name) (hold : (labels.address name).isSome = true) :
    buildLabels c (line :: rest) k labels = .error ⟨.duplicateLabel, line.1, name⟩ := by
  simp [buildLabels, h, hold]

end PassOneLine

/-! ## The bindings of pass 1 (R195, R196) -/

/-- A line declares the name where the next instruction has the address, the first line having `k` instructions before
it. -/
def Binds (c : Config) (k : Nat) (lines : List (Nat × List Char)) (name : List Char) (a : Nat) : Prop :=
  ∃ before line after, lines = before ++ line :: after ∧ labelOfLine line.2 = some name ∧
    a = instructionAddress c (k + (before.filter isInstructionLine).length)

section PassOne
variable {c : Config} {line : Nat × List Char} {lines rest : List (Nat × List Char)} {k : Nat}
  {labels out : LabelMap} {name n : List Char} {a : Nat} {e : AsmError}

theorem not_binds_nil : ¬Binds c k [] n a := by
  rintro ⟨before, line, after, h, -⟩
  cases before <;> cases h

/-- A binding is made by the first line or by a later one. -/
theorem binds_cons : Binds c k (line :: rest) n a ↔
    (labelOfLine line.2 = some n ∧ a = instructionAddress c k) ∨
      Binds c (k + if isInstructionLine line then 1 else 0) rest n a := by
  constructor
  · rintro ⟨before, declaring, after, hlines, hname, ha⟩
    cases before with
    | nil =>
      obtain ⟨rfl, rfl⟩ := List.cons.inj hlines
      exact .inl ⟨hname, ha⟩
    | cons x before =>
      obtain ⟨rfl, rfl⟩ := List.cons.inj hlines
      refine .inr ⟨before, declaring, after, rfl, hname, ha.trans (congrArg _ ?_)⟩
      rw [List.filter_cons]
      split <;> grind
  · rintro (⟨hname, ha⟩ | ⟨before, declaring, after, rfl, hname, ha⟩)
    · exact ⟨[], line, rest, rfl, hname, ha⟩
    · refine ⟨line :: before, declaring, after, rfl, hname, ha.trans (congrArg _ ?_)⟩
      rw [List.filter_cons]
      split <;> grind

/-- A binding from an instruction line on is made after it, where one instruction more stands before. -/
theorem binds_instruction (h : labelOfLine line.2 = none) : Binds c k (line :: rest) n a ↔ Binds c (k + 1) rest n a := by
  rw [binds_cons, isInstructionLine_iff.2 h, h]
  simp

/-- A binding from a label line on is the line's own or a later one. -/
theorem binds_label (h : labelOfLine line.2 = some name) : Binds c k (line :: rest) n a ↔
    (n = name ∧ a = instructionAddress c k) ∨ Binds c k rest n a := by
  rw [binds_cons, h, Option.some_inj, eq_comm (a := name), isInstructionLine, h]
  rfl

/-- The map after pass 1 has the names of the map before and those the lines bind. -/
theorem address_of_buildLabels (h : buildLabels c lines k labels = .ok out) :
    out.address n = some a ↔ labels.address n = some a ∨ Binds c k lines n a := by
  induction lines generalizing k labels with
  | nil =>
    obtain rfl : labels = out := Except.ok.inj h
    simp [not_binds_nil]
  | cons line rest ih =>
    cases hline : labelOfLine line.2 with
    | none =>
      rw [buildLabels_instruction hline] at h
      rw [ih h, binds_instruction hline]
    | some name =>
      cases hold : labels.address name with
      | some b =>
        rw [buildLabels_duplicate hline (by simp [hold])] at h
        cases h
      | none =>
        rw [buildLabels_new hline hold] at h
        rw [ih h, binds_label hline, ← or_assoc, LabelMap.address_cons]
        by_cases hn : n = name
        · simp [hn, hold, eq_comm]
        · simp [hn]

/-! ## The names declared (R197) -/

/-- The names the lines declare, in order. -/
def declaredNames (lines : List (Nat × List Char)) : List (List Char) := lines.filterMap fun l => labelOfLine l.2

theorem mem_declaredNames : n ∈ declaredNames lines ↔ ∃ l ∈ lines, labelOfLine l.2 = some n :=
  List.mem_filterMap

theorem declaredNames_instruction (h : labelOfLine line.2 = none) : declaredNames (line :: rest) = declaredNames rest :=
  List.filterMap_cons_none h

theorem declaredNames_label (h : labelOfLine line.2 = some name) :
    declaredNames (line :: rest) = name :: declaredNames rest :=
  List.filterMap_cons_some h

/-- A name is declared when it is bound to some address. -/
theorem mem_declaredNames_of_binds (h : Binds c k lines n a) : n ∈ declaredNames lines := by
  obtain ⟨before, line, after, rfl, hname, -⟩ := h
  exact mem_declaredNames.2 ⟨line, by simp, hname⟩

/-- Pass 1 succeeds when the names declared are distinct, and none of them is in the map. -/
theorem buildLabels_ok_iff : (∃ out, buildLabels c lines k labels = .ok out) ↔
    (declaredNames lines).Nodup ∧ ∀ n ∈ declaredNames lines, labels.address n = none := by
  induction lines generalizing k labels with
  | nil => exact ⟨fun _ => ⟨.nil, nofun⟩, fun _ => ⟨labels, rfl⟩⟩
  | cons line rest ih =>
    cases hline : labelOfLine line.2 with
    | none => rw [buildLabels_instruction hline, declaredNames_instruction hline, ih]
    | some name =>
      rw [declaredNames_label hline, List.nodup_cons, List.forall_mem_cons]
      cases hold : labels.address name with
      | some b => simp [buildLabels_duplicate hline, hold]
      | none =>
        rw [buildLabels_new hline hold, ih]
        have hfresh (n : List Char) : LabelMap.address ((name, instructionAddress c k) :: labels) n = none ↔
            n ≠ name ∧ labels.address n = none := by
          rw [LabelMap.address_cons]
          split <;> simp_all
        simp only [hfresh, forall_and, List.forall_mem_ne', true_and]
        tauto

/-- Pass 1 stops at a line whose name the lines before it have put in the map. -/
theorem buildLabels_error (h : buildLabels c lines k labels = .error e) : e.kind = .duplicateLabel ∧
    ∃ before line after, lines = before ++ line :: after ∧ line.1 = e.line ∧ labelOfLine line.2 = some e.detail ∧
      ∃ out, buildLabels c before k labels = .ok out ∧ (out.address e.detail).isSome = true := by
  induction lines generalizing k labels with
  | nil => cases h
  | cons line rest ih =>
    cases hline : labelOfLine line.2 with
    | none =>
      rw [buildLabels_instruction hline] at h
      obtain ⟨hkind, before, dup, after, rfl, hrest⟩ := ih h
      exact ⟨hkind, line :: before, dup, after, rfl, by rwa [buildLabels_instruction hline]⟩
    | some name =>
      cases hold : labels.address name with
      | some b =>
        rw [buildLabels_duplicate hline (by simp [hold])] at h
        obtain rfl := Except.error.inj h
        exact ⟨rfl, [], line, rest, rfl, rfl, hline, labels, rfl, by simp [hold]⟩
      | none =>
        rw [buildLabels_new hline hold] at h
        obtain ⟨hkind, before, dup, after, rfl, hrest⟩ := ih h
        exact ⟨hkind, line :: before, dup, after, rfl, by rwa [buildLabels_new hline hold]⟩

end PassOne

/-! ## Pass 2 (R198, R214, R230) -/

section PassTwo
variable {c : Config} {labels : LabelMap} {line : Nat × List Char} {lines rest : List (Nat × List Char)} {i : Nat}
  {words : List Word} {e : AsmError}

/-- Label lines are skipped: pass 2 depends on the instruction lines only. -/
theorem encodeLines_filter (lines : List (Nat × List Char)) (i : Nat) :
    encodeLines c labels lines i = encodeLines c labels (lines.filter isInstructionLine) i := by
  induction lines generalizing i with
  | nil => rfl
  | cons line rest ih =>
    cases hline : labelOfLine line.2 with
    | none => simp only [List.filter_cons, isInstructionLine_iff.2 hline, if_true, encodeLines, hline, ih]
    | some name => simp [isInstructionLine, encodeLines, hline, ih]

/-- Where pass 2 succeeds from an instruction line on, the line gives its word and the lines after it the rest. -/
theorem encodeLines_cons_ok (hline : isInstructionLine line = true)
    (h : encodeLines c labels (line :: rest) i = .ok words) : ∃ ins tail,
      assembleLine (instructionAddress c i) labels line.2 = .ok ins ∧ encodeLines c labels rest (i + 1) = .ok tail ∧
        words = encode c.opcodes ins :: tail := by
  simp only [encodeLines, isInstructionLine_iff.1 hline] at h
  cases hins : assembleLine (instructionAddress c i) labels line.2 with
  | error x => simp [hins] at h
  | ok ins =>
    cases htail : encodeLines c labels rest (i + 1) with
    | error e => simp [hins, htail] at h
    | ok tail => exact ⟨ins, tail, rfl, rfl, by simpa [hins, htail, eq_comm] using h⟩

/-- Where pass 2 fails from an instruction line on, the line does not assemble or a later one fails. -/
theorem encodeLines_cons_error (hline : isInstructionLine line = true)
    (h : encodeLines c labels (line :: rest) i = .error e) :
    (line.1 = e.line ∧ assembleLine (instructionAddress c i) labels line.2 = .error (e.kind, e.detail)) ∨
      ∃ ins, assembleLine (instructionAddress c i) labels line.2 = .ok ins ∧
        encodeLines c labels rest (i + 1) = .error e := by
  simp only [encodeLines, isInstructionLine_iff.1 hline] at h
  cases hins : assembleLine (instructionAddress c i) labels line.2 with
  | error x =>
    rw [hins] at h
    obtain rfl := Except.error.inj h
    exact .inl ⟨rfl, rfl⟩
  | ok ins =>
    cases htail : encodeLines c labels rest (i + 1) with
    | error e => exact .inr ⟨ins, rfl, by simpa [hins, htail] using h⟩
    | ok tail => simp [hins, htail] at h

/-- Word `k` is the word of instruction line `k`, assembled at its own address, and there is no other word. -/
theorem encodeLines_ok (hlines : ∀ line ∈ lines, isInstructionLine line = true)
    (h : encodeLines c labels lines i = .ok words) : words.length = lines.length ∧
      ∀ (k : Nat) (line : Nat × List Char), lines[k]? = some line →
        ∃ ins, assembleLine (instructionAddress c (i + k)) labels line.2 = .ok ins ∧
          words[k]? = some (encode c.opcodes ins) := by
  induction lines generalizing i words with
  | nil =>
    obtain rfl := Except.ok.inj h
    exact ⟨rfl, nofun⟩
  | cons first rest ih =>
    obtain ⟨hfirst, hrest⟩ := List.forall_mem_cons.1 hlines
    obtain ⟨ins, tail, hins, htail, rfl⟩ := encodeLines_cons_ok hfirst h
    obtain ⟨hlength, hwords⟩ := ih hrest htail
    refine ⟨congrArg (· + 1) hlength, fun k line hk => ?_⟩
    cases k with
    | zero =>
      obtain rfl := Option.some.inj hk
      exact ⟨ins, hins, rfl⟩
    | succ k =>
      rw [List.getElem?_cons_succ, ← Nat.add_assoc, Nat.add_right_comm]
      exact hwords k line hk

/-- Pass 2 stops at the first instruction line that does not assemble. -/
theorem encodeLines_error (hlines : ∀ line ∈ lines, isInstructionLine line = true)
    (h : encodeLines c labels lines i = .error e) : ∃ (k : Nat) (line : Nat × List Char),
      lines[k]? = some line ∧ line.1 = e.line ∧
      assembleLine (instructionAddress c (i + k)) labels line.2 = .error (e.kind, e.detail) ∧
      ∀ (m : Nat) (earlier : Nat × List Char), m < k → lines[m]? = some earlier →
        ∃ ins, assembleLine (instructionAddress c (i + m)) labels earlier.2 = .ok ins := by
  induction lines generalizing i with
  | nil => cases h
  | cons first rest ih =>
    obtain ⟨hfirst, hrest⟩ := List.forall_mem_cons.1 hlines
    obtain ⟨hnumber, hx⟩ | ⟨ins, hins, htail⟩ := encodeLines_cons_error hfirst h
    · exact ⟨0, first, rfl, hnumber, hx, nofun⟩
    · obtain ⟨k, line, hk, hnumber, hx, hearlier⟩ := ih hrest htail
      refine ⟨k + 1, line, hk, hnumber, by rwa [← Nat.add_assoc, Nat.add_right_comm], fun m earlier hm hget => ?_⟩
      cases m with
      | zero =>
        obtain rfl := Option.some.inj hget
        exact ⟨ins, hins⟩
      | succ m =>
        rw [← Nat.add_assoc, Nat.add_right_comm]
        exact hearlier m earlier (Nat.lt_of_succ_lt_succ hm) hget

end PassTwo

/-! ## Both passes (R190, R230) -/

section Assemble
variable {c : Config} {text : List Char} {words : List Word} {e : AsmError}

/-- An assembly that succeeds passes both passes. -/
theorem assemble_ok (h : assemble c text = .ok words) : ∃ labels,
    buildLabels c (cleanedLines text) 0 [] = .ok labels ∧
      encodeLines c labels ((cleanedLines text).filter isInstructionLine) 0 = .ok words := by
  rw [assemble] at h
  cases hbuild : buildLabels c (cleanedLines text) 0 [] with
  | error e => simp [hbuild] at h
  | ok labels => exact ⟨labels, rfl, by simpa [hbuild, ← encodeLines_filter] using h⟩

/-- An assembly that fails fails in pass 1, or in pass 2. -/
theorem assemble_error (h : assemble c text = .error e) : buildLabels c (cleanedLines text) 0 [] = .error e ∨
    ∃ labels, buildLabels c (cleanedLines text) 0 [] = .ok labels ∧
      encodeLines c labels ((cleanedLines text).filter isInstructionLine) 0 = .error e := by
  rw [assemble] at h
  cases hbuild : buildLabels c (cleanedLines text) 0 [] with
  | error e => exact .inl (by simpa [hbuild] using h)
  | ok labels => exact .inr ⟨labels, rfl, by simpa [hbuild, ← encodeLines_filter] using h⟩

/-- Each word of a program is the word of an instruction line. -/
theorem exists_line_of_mem_assemble (h : assemble c text = .ok words) {w : Word} (hw : w ∈ words) :
    ∃ cur labels line ins, assembleLine cur labels line = .ok ins ∧ encode c.opcodes ins = w := by
  obtain ⟨labels, -, hencode⟩ := assemble_ok h
  obtain ⟨hlength, hwords⟩ := encodeLines_ok (fun _ hl => List.of_mem_filter hl) hencode
  obtain ⟨k, hk, rfl⟩ := List.getElem_of_mem hw
  obtain ⟨ins, hins, hword⟩ := hwords k _ (List.getElem?_eq_getElem (hlength ▸ hk))
  exact ⟨_, labels, _, ins, hins, (List.getElem?_eq_some_iff.1 hword).2.symm⟩

end Assemble

/-! ## The statements -/

/-- Settles O49: the library's splitting and joining, the trimmed core, and pass 2 line by line. -/
theorem oneWordPerInstructionLine : Obligations.OneWordPerInstructionLine := by
  refine ⟨fun lines => cleanedLines_intercalate, fun left core right comment hleft hright hcore hhead hlast => ?_,
    fun c text words h => ?_⟩
  · simp only [← isBlank_iff] at hleft hright hhead hlast
    have htrim := trim_eq_core hleft hright hhead hlast
    have hhash : '#' ∉ left ++ core ++ right := by
      have hblank : ¬isBlank '#' = true := by decide
      simp only [List.mem_append, not_or]
      exact ⟨⟨fun h => hblank (hleft _ h), hcore⟩, fun h => hblank (hright _ h)⟩
    exact ⟨(cleanLine_of_no_comment hhash).trans htrim, (cleanLine_append_comment hhash comment).trans htrim⟩
  · obtain ⟨labels, hbuild, hencode⟩ := assemble_ok h
    obtain ⟨hlength, hwords⟩ := encodeLines_ok (fun _ hl => List.of_mem_filter hl) hencode
    exact ⟨hlength, labels, hbuild, by simpa only [Nat.zero_add] using hwords⟩

/-- Settles O50: the shape of a label line, and the map as what the lines bind. -/
theorem labelsBindNextInstruction : Obligations.LabelsBindNextInstruction := by
  refine ⟨fun line name => ?_, fun line => ?_, fun c text labels h name a => ?_⟩
  · simp only [← isBlank_iff]
    rw [labelOfLine_eq_some_iff, isIdent_iff]
    simp only [isIdentRest_iff, isIdentStart_iff, or_assoc]
  · rw [isInstructionLine_iff, Option.eq_none_iff_forall_ne_some]
  · rw [address_of_buildLabels h, Binds]
    simp [LabelMap.address, instructionAddress]

/-- Settles O51: pass 1 is stopped by a name in the map, and those are the names declared before. -/
theorem duplicateLabelIsRejected : Obligations.DuplicateLabelIsRejected := by
  refine fun c text => ⟨buildLabels_ok_iff.trans (and_iff_left fun _ _ => rfl), fun e h => ?_⟩
  obtain ⟨hkind, before, line, after, hlines, hnumber, hname, out, hout, hold⟩ := buildLabels_error h
  obtain ⟨a, ha⟩ := Option.isSome_iff_exists.1 hold
  obtain hnil | hbinds := (address_of_buildLabels hout).1 ha
  · cases hnil
  · exact ⟨hkind, before, line, after, hlines, hnumber, hname, mem_declaredNames.1 (mem_declaredNames_of_binds hbinds),
      (buildLabels_ok_iff.1 ⟨out, hout⟩).1⟩

/-- Settles O52, by which pass fails. -/
theorem firstFailingLineIsReported : Obligations.FirstFailingLineIsReported := by
  intro c text e h
  obtain hbuild | ⟨labels, hbuild, hencode⟩ := assemble_error h
  · exact .inl hbuild
  · have herror := encodeLines_error (fun _ hl => List.of_mem_filter hl) hencode
    exact .inr ⟨labels, hbuild, by simpa only [Nat.zero_add] using herror⟩

end Sys2Proof.Machine
end

section
/-! SUPPORT. The operands of a line one by one: register names, integers, memory operands. With them the statements about
register names and integers. -/

namespace Sys2Proof.Machine

/-! ## Register names (R21, R201) -/

section Registers
variable {token : List Char} {r : Reg}

/-- Each name is the name of one register only. -/
theorem registerOfName_registerName (r : Reg) : registerOfName (registerName r).toList = some r := by
  revert r
  decide

theorem registerOfName_eq_some_iff : registerOfName token = some r ↔ token = (registerName r).toList := by
  refine ⟨fun h => ?_, fun h => h ▸ registerOfName_registerName r⟩
  exact (eq_of_beq (List.find?_some (p := fun r => (registerName r).toList == token) h)).symm

theorem regOperand_of_name (h : registerOfName token = some r) : regOperand token = .ok r := by
  rw [regOperand, h]

theorem regOperand_of_no_name (h : registerOfName token = none) : regOperand token = .error (.badRegister, token) := by
  rw [regOperand, h]

theorem regOperand_ok_iff : regOperand token = .ok r ↔ token = (registerName r).toList := by
  rw [← registerOfName_eq_some_iff, regOperand]
  cases registerOfName token <;> simp

/-- No register has an empty name. -/
theorem ne_nil_of_registerOfName (h : registerOfName token = some r) : token ≠ [] := by
  rintro rfl
  cases h

end Registers

/-- Settles O55, from the table and the lookup in it. -/
theorem registerNamesAreExact : Obligations.RegisterNamesAreExact := by
  refine ⟨⟨rfl, rfl, rfl, rfl, rfl⟩, rfl, fun token => ⟨fun r => regOperand_ok_iff, fun h => ?_⟩⟩
  refine regOperand_of_no_name (Option.eq_none_iff_forall_ne_some.2 fun r hr => ?_)
  exact h r (registerOfName_eq_some_iff.1 hr)

/-! ## Integers (R202) -/

section Integers
variable {token digits : List Char} {n : Int}

/-- A list of characters is a numeral when there is one, and all are digits. -/
theorem readDigits_isSome_iff : (∃ n, readDigits digits = some n) ↔ digits ≠ [] ∧ ∀ c ∈ digits, c.isDigit = true := by
  simp [readDigits, and_comm]

/-- The value of a numeral is the library's. -/
theorem readDigits_eq (hne : digits ≠ []) (hdigits : ∀ c ∈ digits, c.isDigit = true) :
    readDigits digits = some (Nat.ofDigitChars 10 digits 0) := by
  rw [readDigits, if_pos (by simpa [hne] using hdigits), Nat.ofDigitChars_eq_foldl, digitsValue]

theorem readInteger_plus (digits : List Char) : readInteger ('+' :: digits) = (readDigits digits).map Int.ofNat := rfl

theorem readInteger_minus (digits : List Char) :
    readInteger ('-' :: digits) = (readDigits digits).map fun (n : Nat) => -(Int.ofNat n) := rfl

/-- Digits alone have no sign to read. -/
theorem readInteger_digits (hdigits : ∀ c ∈ digits, c.isDigit = true) :
    readInteger digits = (readDigits digits).map Int.ofNat := by
  unfold readInteger
  split
  · exact absurd (hdigits '+' (.head _)) (by decide)
  · exact absurd (hdigits '-' (.head _)) (by decide)
  · rfl

/-- What reads as an integer is a sign or none, and digits. -/
theorem readInteger_isSome_iff : (∃ n, readInteger token = some n) ↔
    ∃ sign digits : List Char, (sign = [] ∨ sign = ['+'] ∨ sign = ['-']) ∧ digits ≠ [] ∧
      (∀ c ∈ digits, c.isDigit = true) ∧ token = sign ++ digits := by
  constructor
  · rintro ⟨n, h⟩
    obtain ⟨sign, digits, hsign, rfl, m, hm⟩ : ∃ sign digits : List Char, (sign = [] ∨ sign = ['+'] ∨ sign = ['-']) ∧
        token = sign ++ digits ∧ ∃ m, readDigits digits = some m := by
      unfold readInteger at h
      split at h <;> obtain ⟨m, hm, -⟩ := Option.map_eq_some_iff.1 h
      · exact ⟨['+'], _, .inr (.inl rfl), rfl, m, hm⟩
      · exact ⟨['-'], _, .inr (.inr rfl), rfl, m, hm⟩
      · exact ⟨[], _, .inl rfl, rfl, m, hm⟩
    obtain ⟨hne, hdigits⟩ := readDigits_isSome_iff.1 ⟨m, hm⟩
    exact ⟨sign, digits, hsign, hne, hdigits, rfl⟩
  · rintro ⟨sign, digits, rfl | rfl | rfl, hne, hdigits, rfl⟩
    · exact ⟨_, by rw [readInteger_digits hdigits, readDigits_eq hne hdigits]; rfl⟩
    · exact ⟨_, by rw [List.singleton_append, readInteger_plus, readDigits_eq hne hdigits]; rfl⟩
    · exact ⟨_, by rw [List.singleton_append, readInteger_minus, readDigits_eq hne hdigits]; rfl⟩

/-- The decimal digits of a number, after any zeros, read as the number. -/
theorem readDigits_zeros_toDigits (zeros n : Nat) :
    readDigits (List.replicate zeros '0' ++ Nat.toDigits 10 n) = some n := by
  have hdigits : ∀ c ∈ List.replicate zeros '0' ++ Nat.toDigits 10 n, c.isDigit = true := by
    intro c hc
    obtain hc | hc := List.mem_append.1 hc
    · rw [List.eq_of_mem_replicate hc]
      decide
    · exact Nat.isDigit_of_mem_toDigits (by decide) (by decide) hc
  rw [readDigits_eq (List.append_ne_nil_of_right_ne_nil _ Nat.toDigits_ne_nil) hdigits, Nat.ofDigitChars_append,
    Nat.ofDigitChars_replicate_zero, Nat.mul_zero, Nat.ofDigitChars_ten_toDigits]

theorem intOperand_of_integer (h : readInteger token = some n) : intOperand token = .ok n := by
  rw [intOperand, h]

theorem intOperand_of_not_integer (h : readInteger token = none) : intOperand token = .error (.badNumber, token) := by
  rw [intOperand, h]

/-- An integer is not empty and holds no parenthesis. -/
theorem ne_nil_and_no_paren_of_readInteger (h : readInteger token = some n) : token ≠ [] ∧ '(' ∉ token := by
  obtain ⟨sign, digits, hsign, hne, hdigits, rfl⟩ := readInteger_isSome_iff.1 ⟨n, h⟩
  refine ⟨List.append_ne_nil_of_right_ne_nil _ hne, fun hmem => ?_⟩
  obtain hmem | hmem := List.mem_append.1 hmem
  · obtain rfl | rfl | rfl := hsign <;> exact absurd hmem (by decide)
  · exact absurd (hdigits _ hmem) (by decide)

end Integers

/-- Settles O54: the sign and the digits of a token, and the value of the library's decimal digits. -/
theorem decimalIntegersAreExact : Obligations.DecimalIntegersAreExact := by
  refine ⟨fun token => ?_, fun zeros n => ?_⟩
  · simp only [← isDigit_iff]
    exact readInteger_isSome_iff
  · have hread := readDigits_zeros_toDigits zeros n
    dsimp only
    rw [readInteger_digits (readDigits_isSome_iff.1 ⟨n, hread⟩).2, readInteger_plus, readInteger_minus, hread]
    exact ⟨rfl, rfl, rfl⟩

/-! ## Memory operands (R204, log 14) -/

section MemoryOperand
variable {token offset register : List Char} {n : Int} {r : Reg}

/-- What is left from the first `(` on begins with it. -/
theorem dropWhile_to_paren {rest : List Char} (h : (token.dropWhile (· != '(')).drop 1 = rest) (hne : rest ≠ []) :
    token.dropWhile (· != '(') = '(' :: rest := by
  cases hsplit : token.dropWhile (· != '(') with
  | nil =>
    rw [hsplit] at h
    exact absurd h.symm hne
  | cons c cs =>
    have hc : c = '(' := by simpa [hsplit] using List.head?_dropWhile_not (· != '(') token
    rw [hc, ← h, hsplit, List.drop_one, List.tail_cons]

/-- A token splits into two texts when it is the first, `(`, the second and `)`, neither text empty, the first without a
parenthesis. -/
theorem splitMemOperand_eq_some_iff : splitMemOperand token = some (offset, register) ↔
    offset ≠ [] ∧ register ≠ [] ∧ '(' ∉ offset ∧ token = offset ++ '(' :: (register ++ [')']) := by
  constructor
  · intro h
    unfold splitMemOperand at h
    dsimp only at h
    split at h
    · next inner hafter =>
      obtain ⟨hnonempty, hparts⟩ := Option.ite_none_left_eq_some.1 h
      obtain ⟨rfl, rfl⟩ := Prod.mk.inj (Option.some.inj hparts)
      simp only [Bool.or_eq_true, List.isEmpty_iff, not_or] at hnonempty
      have hopen : token.dropWhile (· != '(') = '(' :: (inner.reverse ++ [')']) := by
        refine dropWhile_to_paren ?_ (by simp)
        rw [← List.reverse_cons, ← hafter, List.reverse_reverse]
      refine ⟨hnonempty.1, by simpa using hnonempty.2, fun hmem => ?_, ?_⟩
      · exact absurd (List.mem_takeWhile_imp hmem) (by decide)
      · rw [← hopen, List.takeWhile_append_dropWhile]
    · cases h
  · rintro ⟨hoffset, hregister, hparen, rfl⟩
    have hbefore : ∀ c ∈ offset, (c != '(') = true := fun c hc => by simpa using ne_of_mem_of_not_mem hc hparen
    simp [splitMemOperand, List.takeWhile_append_of_pos hbefore, List.dropWhile_append_of_pos hbefore, hoffset, hregister]

/-- A token that is never two texts and their parentheses is no memory operand. -/
theorem splitMemOperand_eq_none (h : ∀ offset register : List Char, offset ≠ [] → register ≠ [] → '(' ∉ offset →
    token ≠ offset ++ '(' :: (register ++ [')'])) : splitMemOperand token = none := by
  refine Option.eq_none_iff_forall_ne_some.2 fun ⟨offset, register⟩ hsplit => ?_
  obtain ⟨hoffset, hregister, hparen, htoken⟩ := splitMemOperand_eq_some_iff.1 hsplit
  exact h offset register hoffset hregister hparen htoken

theorem splitMemOperand_without_paren (h : '(' ∉ token) : splitMemOperand token = none := by
  refine splitMemOperand_eq_none fun offset register _ _ _ htoken => h ?_
  simp [htoken]

theorem splitMemOperand_without_offset (rest : List Char) : splitMemOperand ('(' :: rest) = none := by
  refine splitMemOperand_eq_none fun offset register hoffset _ hparen htoken => ?_
  cases offset with
  | nil => exact hoffset rfl
  | cons c cs =>
    obtain rfl := (List.cons.inj htoken).1
    exact hparen (.head _)

theorem splitMemOperand_unclosed (h : token.getLast? ≠ some ')') : splitMemOperand token = none := by
  refine splitMemOperand_eq_none fun offset register _ _ _ htoken => h ?_
  rw [htoken, ← List.cons_append, ← List.append_assoc, List.getLast?_concat]

theorem splitMemOperand_without_register (h : '(' ∉ offset) : splitMemOperand (offset ++ ['(', ')']) = none := by
  refine splitMemOperand_eq_none fun offset' register _ hregister _ htoken => hregister ?_
  obtain ⟨-, -, hrest⟩ := (List.append_cons_inj_of_notMem h (by decide)).1 htoken
  simpa using hrest

end MemoryOperand

end Sys2Proof.Machine
end

section
/-! SUPPORT. The rules of the mnemonic forms, and the dispatch to them. With them the statements about operands, about
unknown mnemonics and wrong counts, and about the words of a program. -/

namespace Sys2Proof.Machine

/-! ## One rule after another -/

section Sequence
variable {α β : Type} {a : α} {b : β} {x : LineResult α} {f : α → LineResult β} {e : AsmErrorKind × List Char}

@[simp] theorem ok_bind (a : α) (f : α → LineResult β) : (Except.ok a : LineResult α) >>= f = f a := rfl

@[simp] theorem error_bind (e : AsmErrorKind × List Char) (f : α → LineResult β) :
    (Except.error e : LineResult α) >>= f = .error e := rfl

/-- A sequence succeeds when each part does. -/
theorem bind_eq_ok_iff : x >>= f = .ok b ↔ ∃ a, x = .ok a ∧ f a = .ok b := by
  cases x <;> simp

/-- A range test before an answer. -/
theorem requireFits_bind (fits : Bool) (token : List Char) (b : β) :
    (requireFits fits token >>= fun _ => pure b) = if fits then .ok b else .error (.outOfRange, token) := by
  cases fits <;> rfl

theorem requireFits_ok {fits : Bool} {token : List Char} {u : Unit} (h : requireFits fits token = .ok u) : fits = true := by
  cases fits with
  | false => cases h
  | true => rfl

theorem shamtFits_iff {n : Int} : shamtFits n = true ↔ 0 ≤ n ∧ n ≤ 31 := by simp [shamtFits]

theorem imm16Fits_iff {n : Int} : imm16Fits n = true ↔ -32768 ≤ n ∧ n ≤ 32767 := by simp [imm16Fits]

end Sequence

section Forms
variable {m ta tb tc tn label bad : List Char} {a b c : Reg} {cur target : Nat} {labels : LabelMap} {n : Int}

/-! ## Operands that name registers (R207, R209) -/

theorem threeRegForm_of_registers {make : Reg → Reg → Reg → Instr} (ha : registerOfName ta = some a)
    (hb : registerOfName tb = some b) (hc : registerOfName tc = some c) :
    threeRegForm make m [ta, tb, tc] = .ok (make a b c) := by
  simp only [threeRegForm, regOperand_of_name ha, regOperand_of_name hb, regOperand_of_name hc, ok_bind]
  rfl

theorem oneRegForm_of_register {make : Reg → Instr} (ha : registerOfName ta = some a) :
    oneRegForm make m [ta] = .ok (make a) := by
  simp only [oneRegForm, regOperand_of_name ha, ok_bind]
  rfl

/-! ## Integer operands (R208, R210) -/

section Shift
variable {make : Reg → Reg → Nat → Instr} (ha : registerOfName ta = some a) (hb : registerOfName tb = some b)
include ha hb

theorem shiftForm_of_integer (hn : readInteger tn = some n) : shiftForm make m [ta, tb, tn] =
    if 0 ≤ n ∧ n ≤ 31 then .ok (make a b n.toNat) else .error (.outOfRange, tn) := by
  simp only [shiftForm, regOperand_of_name ha, regOperand_of_name hb, intOperand_of_integer hn, ok_bind, requireFits_bind,
    shamtFits_iff]

theorem shiftForm_of_not_integer (hn : readInteger tn = none) : shiftForm make m [ta, tb, tn] = .error (.badNumber, tn) := by
  simp only [shiftForm, regOperand_of_name ha, regOperand_of_name hb, intOperand_of_not_integer hn, ok_bind, error_bind]

end Shift

section Immediate
variable {make : Reg → Reg → Int → Instr} (ha : registerOfName ta = some a) (hb : registerOfName tb = some b)
include ha hb

theorem immForm_of_integer (hn : readInteger tn = some n) : immForm make m [ta, tb, tn] =
    if -32768 ≤ n ∧ n ≤ 32767 then .ok (make a b n) else .error (.outOfRange, tn) := by
  simp only [immForm, regOperand_of_name ha, regOperand_of_name hb, intOperand_of_integer hn, ok_bind, requireFits_bind,
    imm16Fits_iff]

theorem immForm_of_not_integer (hn : readInteger tn = none) : immForm make m [ta, tb, tn] = .error (.badNumber, tn) := by
  simp only [immForm, regOperand_of_name ha, regOperand_of_name hb, intOperand_of_not_integer hn, ok_bind, error_bind]

/-! ## Label operands (R212, R213) -/

theorem branchForm_of_label (ht : labels.address label = some target) : branchForm make cur labels m [ta, tb, label] =
    if -32768 ≤ branchDisplacement target cur ∧ branchDisplacement target cur ≤ 32767
    then .ok (make a b (branchDisplacement target cur)) else .error (.outOfRange, label) := by
  simp only [branchForm, regOperand_of_name ha, regOperand_of_name hb, labelOperand, ht, ok_bind, requireFits_bind,
    imm16Fits_iff]

theorem branchForm_unresolved (ht : labels.address label = none) :
    branchForm make cur labels m [ta, tb, label] = .error (.unresolvedLabel, label) := by
  simp only [branchForm, regOperand_of_name ha, regOperand_of_name hb, labelOperand, ht, ok_bind, error_bind]

end Immediate

/-- Where the exact division of R212 has a result, it is the displacement. -/
theorem branchDisplacement_of_mul {disp : Int} (h : disp * 4 = (target : Int) - (cur + 4)) :
    branchDisplacement target cur = disp := by
  rw [branchDisplacement, ← h, Int.mul_ediv_cancel _ (by decide)]

theorem jumpForm_of_label {make : Nat → Instr} (ht : labels.address label = some target) :
    jumpForm make labels m [label] = .ok (make (jumpField target)) := by
  simp only [jumpForm, labelOperand, ht, ok_bind]
  rfl

theorem jumpForm_unresolved {make : Nat → Instr} (ht : labels.address label = none) :
    jumpForm make labels m [label] = .error (.unresolvedLabel, label) := by
  simp only [jumpForm, labelOperand, ht, error_bind]

/-! ## Memory operands (R211) -/

section Memory
variable {make : Reg → Int → Reg → Instr} {token offset register : List Char} {r : Reg}
  (ha : registerOfName ta = some a)
include ha

theorem memForm_malformed (h : splitMemOperand token = none) :
    memForm make m [ta, token] = .error (.badMemOperand, token) := by
  simp only [memForm, regOperand_of_name ha, memOperand, h, ok_bind, error_bind]

variable (hsplit : splitMemOperand token = some (offset, register))
include hsplit

theorem memForm_of_parts (hn : readInteger offset = some n) (hr : registerOfName register = some r) :
    memForm make m [ta, token] =
      if -32768 ≤ n ∧ n ≤ 32767 then .ok (make a n r) else .error (.outOfRange, token) := by
  simp only [memForm, regOperand_of_name ha, memOperand, hsplit, intOperand_of_integer hn, regOperand_of_name hr, ok_bind,
    pure_bind, requireFits_bind, imm16Fits_iff]

theorem memForm_of_bad_register (hn : readInteger offset = some n) (hr : registerOfName register = none) :
    memForm make m [ta, token] = .error (.badRegister, register) := by
  simp only [memForm, regOperand_of_name ha, memOperand, hsplit, intOperand_of_integer hn, regOperand_of_no_name hr, ok_bind,
    error_bind]

theorem memForm_of_bad_offset (hn : readInteger offset = none) :
    memForm make m [ta, token] = .error (.badNumber, offset) := by
  simp only [memForm, regOperand_of_name ha, memOperand, hsplit, intOperand_of_not_integer hn, ok_bind, error_bind]

end Memory

/-! ## A token in a register position that names no register (R201, R232) -/

/-- A form of three operands that looks at its first two as registers, from the left, before it looks at the third. -/
def ChecksTwoRegisters (form : List (List Char) → LineResult Instr) : Prop :=
  ∀ (bad x y ta : List Char) (a : Reg), registerOfName bad = none → registerOfName ta = some a →
    form [bad, x, y] = .error (.badRegister, bad) ∧ form [ta, bad, y] = .error (.badRegister, bad)

theorem threeRegForm_checksTwoRegisters (make : Reg → Reg → Reg → Instr) (m : List Char) :
    ChecksTwoRegisters (threeRegForm make m) := fun bad x y ta a hbad ha => by
  simp [threeRegForm, regOperand_of_no_name hbad, regOperand_of_name ha]

theorem shiftForm_checksTwoRegisters (make : Reg → Reg → Nat → Instr) (m : List Char) :
    ChecksTwoRegisters (shiftForm make m) := fun bad x y ta a hbad ha => by
  simp [shiftForm, regOperand_of_no_name hbad, regOperand_of_name ha]

theorem immForm_checksTwoRegisters (make : Reg → Reg → Int → Instr) (m : List Char) :
    ChecksTwoRegisters (immForm make m) := fun bad x y ta a hbad ha => by
  simp [immForm, regOperand_of_no_name hbad, regOperand_of_name ha]

theorem branchForm_checksTwoRegisters (make : Reg → Reg → Int → Instr) (cur : Nat) (labels : LabelMap) (m : List Char) :
    ChecksTwoRegisters (branchForm make cur labels m) := fun bad x y ta a hbad ha => by
  simp [branchForm, regOperand_of_no_name hbad, regOperand_of_name ha]

section BadRegister
variable (hbad : registerOfName bad = none)
include hbad

theorem threeRegForm_bad_third {make : Reg → Reg → Reg → Instr} (ha : registerOfName ta = some a)
    (hb : registerOfName tb = some b) : threeRegForm make m [ta, tb, bad] = .error (.badRegister, bad) := by
  simp only [threeRegForm, regOperand_of_name ha, regOperand_of_name hb, regOperand_of_no_name hbad, ok_bind, error_bind]

theorem memForm_bad_first {make : Reg → Int → Reg → Instr} (token : List Char) :
    memForm make m [bad, token] = .error (.badRegister, bad) := by
  simp only [memForm, regOperand_of_no_name hbad, error_bind]

theorem oneRegForm_bad {make : Reg → Instr} : oneRegForm make m [bad] = .error (.badRegister, bad) := by
  simp only [oneRegForm, regOperand_of_no_name hbad, error_bind]

end BadRegister

end Forms

/-! ## What a form takes and answers (R205; `Instr.wf`) -/

/-- A form that takes `count` operands, and answers instructions whose operands fit: any other list of operands is an error
of the count. -/
def IsForm (count : Nat) (form : List Char → List (List Char) → LineResult Instr) : Prop :=
  ∀ m ops, (ops.length = count ∧ ∀ i, form m ops = .ok i → i.wf = true) ∨ form m ops = .error (.operandCount, m)

section IsForm
variable {count : Nat} {form : List Char → List (List Char) → LineResult Instr} (hform : IsForm count form)
  {m : List Char} {ops : List (List Char)} {i : Instr}
include hform

theorem IsForm.wrongCount (h : ops.length ≠ count) : form m ops = .error (.operandCount, m) :=
  (hform m ops).resolve_left fun hcount => h hcount.1

theorem IsForm.wf (h : form m ops = .ok i) : i.wf = true := by
  obtain ⟨-, hwf⟩ | herror := hform m ops
  · exact hwf i h
  · cases herror.symm.trans h

end IsForm

theorem isForm_threeReg {make : Reg → Reg → Reg → Instr}
    (hmake : ∀ d s t, (make d s t).wf = true) : IsForm 3 (threeRegForm make) := by
  intro m ops
  unfold threeRegForm
  split
  · refine .inl ⟨rfl, fun i h => ?_⟩
    simp only [bind_eq_ok_iff] at h
    obtain ⟨d, -, s, -, t, -, ⟨⟩⟩ := h
    exact hmake d s t
  · exact .inr rfl

theorem isForm_shift {make : Reg → Reg → Nat → Instr}
    (hmake : ∀ (d t : Reg) (n : Nat), shamtFits n = true → (make d t n).wf = true) : IsForm 3 (shiftForm make) := by
  intro m ops
  unfold shiftForm
  split
  · refine .inl ⟨rfl, fun i h => ?_⟩
    simp only [bind_eq_ok_iff] at h
    obtain ⟨d, -, t, -, n, -, _, hfits, ⟨⟩⟩ := h
    have hn := requireFits_ok hfits
    exact hmake d t n.toNat (by rwa [Int.toNat_of_nonneg (shamtFits_iff.1 hn).1])
  · exact .inr rfl

theorem isForm_oneReg {make : Reg → Instr}
    (hmake : ∀ s, (make s).wf = true) : IsForm 1 (oneRegForm make) := by
  intro m ops
  unfold oneRegForm
  split
  · refine .inl ⟨rfl, fun i h => ?_⟩
    simp only [bind_eq_ok_iff] at h
    obtain ⟨s, -, ⟨⟩⟩ := h
    exact hmake s
  · exact .inr rfl

theorem isForm_imm {make : Reg → Reg → Int → Instr}
    (hmake : ∀ t s n, imm16Fits n = true → (make t s n).wf = true) : IsForm 3 (immForm make) := by
  intro m ops
  unfold immForm
  split
  · refine .inl ⟨rfl, fun i h => ?_⟩
    simp only [bind_eq_ok_iff] at h
    obtain ⟨t, -, s, -, n, -, _, hfits, ⟨⟩⟩ := h
    exact hmake t s n (requireFits_ok hfits)
  · exact .inr rfl

theorem isForm_mem {make : Reg → Int → Reg → Instr}
    (hmake : ∀ t n s, imm16Fits n = true → (make t n s).wf = true) : IsForm 2 (memForm make) := by
  intro m ops
  unfold memForm
  split
  · refine .inl ⟨rfl, fun i h => ?_⟩
    simp only [bind_eq_ok_iff] at h
    obtain ⟨t, -, ⟨n, s⟩, -, _, hfits, ⟨⟩⟩ := h
    exact hmake t n s (requireFits_ok hfits)
  · exact .inr rfl

theorem isForm_branch {make : Reg → Reg → Int → Instr}
    (hmake : ∀ s t disp, imm16Fits disp = true → (make s t disp).wf = true) (cur : Nat) (labels : LabelMap) :
    IsForm 3 (branchForm make cur labels) := by
  intro m ops
  unfold branchForm
  split
  · refine .inl ⟨rfl, fun i h => ?_⟩
    simp only [bind_eq_ok_iff] at h
    obtain ⟨s, -, t, -, target, -, _, hfits, ⟨⟩⟩ := h
    exact hmake s t _ (requireFits_ok hfits)
  · exact .inr rfl

theorem isForm_jump {make : Nat → Instr}
    (hmake : ∀ target, targetFits target = true → (make target).wf = true) (labels : LabelMap) :
    IsForm 1 (jumpForm make labels) := by
  intro m ops
  unfold jumpForm
  split
  · refine .inl ⟨rfl, fun i h => ?_⟩
    simp only [bind_eq_ok_iff] at h
    obtain ⟨target, -, ⟨⟩⟩ := h
    exact hmake _ (targetFits_jumpField target)
  · exact .inr rfl

/-! ## The dispatch (R200, R206)

One equation per mnemonic, for `simp only` and `rw`: the default simp set spells a mnemonic as its characters, so tagging
them would have no effect. -/

section DispatchEquations
variable (cur : Nat) (labels : LabelMap) (ops : List (List Char))

theorem assembleOperands_add : assembleOperands cur labels "add".toList ops = threeRegForm .add "add".toList ops := rfl
theorem assembleOperands_sub : assembleOperands cur labels "sub".toList ops = threeRegForm .sub "sub".toList ops := rfl
theorem assembleOperands_and : assembleOperands cur labels "and".toList ops = threeRegForm .and "and".toList ops := rfl
theorem assembleOperands_or : assembleOperands cur labels "or".toList ops = threeRegForm .or "or".toList ops := rfl
theorem assembleOperands_slt : assembleOperands cur labels "slt".toList ops = threeRegForm .slt "slt".toList ops := rfl
theorem assembleOperands_sll : assembleOperands cur labels "sll".toList ops = shiftForm .sll "sll".toList ops := rfl
theorem assembleOperands_srl : assembleOperands cur labels "srl".toList ops = shiftForm .srl "srl".toList ops := rfl
theorem assembleOperands_jr : assembleOperands cur labels "jr".toList ops = oneRegForm .jr "jr".toList ops := rfl
theorem assembleOperands_addi : assembleOperands cur labels "addi".toList ops = immForm .addi "addi".toList ops := rfl
theorem assembleOperands_lw : assembleOperands cur labels "lw".toList ops = memForm .lw "lw".toList ops := rfl
theorem assembleOperands_sw : assembleOperands cur labels "sw".toList ops = memForm .sw "sw".toList ops := rfl
theorem assembleOperands_beq : assembleOperands cur labels "beq".toList ops = branchForm .beq cur labels "beq".toList ops := rfl
theorem assembleOperands_bne : assembleOperands cur labels "bne".toList ops = branchForm .bne cur labels "bne".toList ops := rfl
theorem assembleOperands_j : assembleOperands cur labels "j".toList ops = jumpForm .j labels "j".toList ops := rfl
theorem assembleOperands_jal : assembleOperands cur labels "jal".toList ops = jumpForm .jal labels "jal".toList ops := rfl

end DispatchEquations

/-- A mnemonic with the number of operands it takes and its form. -/
structure Rule where
  mnemonic : String
  count : Nat
  form : List Char → List (List Char) → LineResult Instr

/-- The fifteen mnemonics (R207 to R213). -/
def rules (cur : Nat) (labels : LabelMap) : List Rule := [
  ⟨"add", 3, threeRegForm .add⟩, ⟨"sub", 3, threeRegForm .sub⟩, ⟨"and", 3, threeRegForm .and⟩,
  ⟨"or", 3, threeRegForm .or⟩, ⟨"slt", 3, threeRegForm .slt⟩,
  ⟨"sll", 3, shiftForm .sll⟩, ⟨"srl", 3, shiftForm .srl⟩, ⟨"addi", 3, immForm .addi⟩,
  ⟨"beq", 3, branchForm .beq cur labels⟩, ⟨"bne", 3, branchForm .bne cur labels⟩,
  ⟨"lw", 2, memForm .lw⟩, ⟨"sw", 2, memForm .sw⟩, ⟨"jr", 1, oneRegForm .jr⟩,
  ⟨"j", 1, jumpForm .j labels⟩, ⟨"jal", 1, jumpForm .jal labels⟩]

section Dispatch
variable {cur : Nat} {labels : LabelMap} {m : List Char} {ops : List (List Char)} {i : Instr}

/-- A mnemonic goes to its form. -/
theorem assembleOperands_of_rule :
    ∀ r ∈ rules cur labels, assembleOperands cur labels r.mnemonic.toList ops = r.form r.mnemonic.toList ops := by
  simp only [rules, List.forall_mem_cons]
  exact ⟨rfl, rfl, rfl, rfl, rfl, rfl, rfl, rfl, rfl, rfl, rfl, rfl, rfl, rfl, rfl, nofun⟩

/-- Any other text is no mnemonic. -/
theorem assembleOperands_of_no_rule (h : ∀ r ∈ rules cur labels, r.mnemonic.toList ≠ m) :
    assembleOperands cur labels m ops = .error (.unknownMnemonic, m) := by
  simp only [rules, List.forall_mem_cons, ne_eq, eq_comm (b := m)] at h
  simp only [assembleOperands, h, if_false]

/-- Each form takes the number of operands of its rule, and answers instructions whose operands fit. -/
theorem isForm_of_rule : ∀ r ∈ rules cur labels, IsForm r.count r.form := by
  simp only [rules, List.forall_mem_cons]
  exact ⟨isForm_threeReg fun _ _ _ => rfl, isForm_threeReg fun _ _ _ => rfl, isForm_threeReg fun _ _ _ => rfl,
    isForm_threeReg fun _ _ _ => rfl, isForm_threeReg fun _ _ _ => rfl,
    isForm_shift fun _ _ _ => id, isForm_shift fun _ _ _ => id, isForm_imm fun _ _ _ => id,
    isForm_branch (fun _ _ _ => id) _ _, isForm_branch (fun _ _ _ => id) _ _,
    isForm_mem fun _ _ _ => id, isForm_mem fun _ _ _ => id, isForm_oneReg fun _ => rfl,
    isForm_jump (fun _ => id) _, isForm_jump (fun _ => id) _, nofun⟩

/-- A line's instruction has operands that fit their fields. -/
theorem wf_of_assembleOperands (h : assembleOperands cur labels m ops = .ok i) : i.wf = true := by
  by_cases hrule : ∃ r ∈ rules cur labels, r.mnemonic.toList = m
  · obtain ⟨r, hr, rfl⟩ := hrule
    exact (isForm_of_rule r hr).wf ((assembleOperands_of_rule r hr).symm.trans h)
  · rw [assembleOperands_of_no_rule fun r hr hm => hrule ⟨r, hr, hm⟩] at h
    cases h

theorem assembleLine_of_no_token {line : List Char} (h : tokensOf line = []) :
    assembleLine cur labels line = .error (.unknownMnemonic, []) := by
  rw [assembleLine, h]

theorem assembleLine_of_tokens {line : List Char} (h : tokensOf line = m :: ops) :
    assembleLine cur labels line = assembleOperands cur labels m ops := by
  rw [assembleLine, h]

theorem wf_of_assembleLine {line : List Char} (h : assembleLine cur labels line = .ok i) : i.wf = true := by
  cases htokens : tokensOf line with
  | nil =>
    rw [assembleLine_of_no_token htokens] at h
    cases h
  | cons m ops => exact wf_of_assembleOperands ((assembleLine_of_tokens htokens).symm.trans h)

end Dispatch

/-! ## The statements -/

/-- Settles O48: each word is the word of a line's instruction, whose operands fit. -/
theorem assembledWordsAreInstructions : Obligations.AssembledWordsAreInstructions := by
  intro c text words h w hw
  obtain ⟨cur, labels, line, i, hline, rfl⟩ := exists_line_of_mem_assemble h hw
  have hwf := wf_of_assembleLine hline
  exact ⟨i, hwf, rfl, fun hm => encodeThenDecodeGivesInstruction _ i hm hwf⟩

/-- Settles O53, form by form. -/
theorem numericOperandsAreRangeChecked : Obligations.NumericOperandsAreRangeChecked := by
  intro cur labels ta tb tc tn a b c ha hb hc
  simp only [List.forall_mem_cons, assembleOperands_add, assembleOperands_sub, assembleOperands_and, assembleOperands_or,
    assembleOperands_slt, assembleOperands_sll, assembleOperands_srl, assembleOperands_addi, assembleOperands_beq,
    assembleOperands_bne, assembleOperands_lw, assembleOperands_sw, assembleOperands_jr]
  refine ⟨?_, fun n hn => ?_, fun hn => ?_, fun bad x y hbad => ?_⟩
  · have hregisters {make : Reg → Reg → Reg → Instr} {m : List Char} :=
      threeRegForm_of_registers (make := make) (m := m) ha hb hc
    exact ⟨hregisters, hregisters, hregisters, hregisters, hregisters, oneRegForm_of_register ha⟩
  · exact ⟨shiftForm_of_integer ha hb hn, shiftForm_of_integer ha hb hn, immForm_of_integer ha hb hn⟩
  · exact ⟨shiftForm_of_not_integer ha hb hn, shiftForm_of_not_integer ha hb hn, immForm_of_not_integer ha hb hn⟩
  · have hthree (make : Reg → Reg → Reg → Instr) (m : List Char) :=
      threeRegForm_checksTwoRegisters make m bad x y ta a hbad ha
    have hthird {make : Reg → Reg → Reg → Instr} {m : List Char} :=
      threeRegForm_bad_third (make := make) (m := m) hbad ha hb
    exact ⟨⟨hthree .., hthree .., hthree .., hthree .., hthree ..,
        shiftForm_checksTwoRegisters _ _ bad x y ta a hbad ha, shiftForm_checksTwoRegisters _ _ bad x y ta a hbad ha,
        immForm_checksTwoRegisters _ _ bad x y ta a hbad ha, branchForm_checksTwoRegisters _ _ _ _ bad x y ta a hbad ha,
        branchForm_checksTwoRegisters _ _ _ _ bad x y ta a hbad ha, nofun⟩,
      ⟨hthird, hthird, hthird, hthird, hthird, nofun⟩,
      ⟨memForm_bad_first hbad x, memForm_bad_first hbad x, nofun⟩, oneRegForm_bad hbad⟩

/-- Settles O56: the three equations of the tokens, then the rule of the mnemonic, if there is one. -/
theorem mnemonicAndCountAreCheckedFirst : Obligations.MnemonicAndCountAreCheckedFirst := by
  refine ⟨⟨tokensOf_nil, ?_, ?_⟩, fun cur labels line => ⟨assembleLine_of_no_token, fun m ops h => ?_⟩⟩
  · simp only [← isSeparator_iff]
    exact fun c rest hc => tokensOf_separator_cons hc rest
  · simp only [← isSeparator_iff, Bool.not_eq_true]
    exact fun token rest => tokensOf_token_append
  · have hcounts : [("add", 3), ("sub", 3), ("and", 3), ("or", 3), ("slt", 3), ("sll", 3), ("srl", 3), ("addi", 3),
        ("beq", 3), ("bne", 3), ("lw", 2), ("sw", 2), ("jr", 1), ("j", 1), ("jal", 1)] =
        (rules cur labels).map fun r => (r.mnemonic, r.count) := rfl
    refine ⟨assembleLine_of_tokens h, ?_⟩
    rw [assembleLine_of_tokens h, hcounts]
    simp only [List.forall_mem_map]
    refine ⟨assembleOperands_of_no_rule, fun r hr hm hcount => ?_⟩
    subst hm
    rw [assembleOperands_of_rule r hr]
    exact (isForm_of_rule r hr).wrongCount hcount

/-- Settles O57, form by form. -/
theorem labelOperandsAreResolved : Obligations.LabelOperandsAreResolved := by
  intro cur labels ta tb name a b ha hb
  simp only [assembleOperands_beq, assembleOperands_bne, assembleOperands_j, assembleOperands_jal]
  refine ⟨fun hname => ?_, fun target htarget => ⟨fun disp hdisp => ?_, ?_⟩⟩
  · exact ⟨branchForm_unresolved ha hb hname, branchForm_unresolved ha hb hname, jumpForm_unresolved hname,
      jumpForm_unresolved hname⟩
  · obtain rfl := branchDisplacement_of_mul hdisp
    exact ⟨branchForm_of_label ha hb htarget, branchForm_of_label ha hb htarget⟩
  · exact ⟨jumpForm_of_label htarget, jumpForm_of_label htarget⟩

/-- Settles O58: when the token splits, what its two parts give, and else what keeps it from splitting. -/
theorem memoryOperandIsOffsetAndRegister : Obligations.MemoryOperandIsOffsetAndRegister := by
  intro cur labels ta offset register a ha
  dsimp only
  simp only [assembleOperands_lw, assembleOperands_sw]
  have hsplit (hoffset : offset ≠ [] ∧ '(' ∉ offset) (hregister : register ≠ []) :
      splitMemOperand (offset ++ '(' :: (register ++ [')'])) = some (offset, register) :=
    splitMemOperand_eq_some_iff.2 ⟨hoffset.1, hregister, hoffset.2, rfl⟩
  have hmalformed {make₁ make₂ : Reg → Int → Reg → Instr} {m₁ m₂ token : List Char} (h : splitMemOperand token = none) :=
    And.intro (memForm_malformed (make := make₁) (m := m₁) ha h) (memForm_malformed (make := make₂) (m := m₂) ha h)
  refine ⟨fun n r hn hr => ?_, fun n hn hregister hr => ?_, fun hoffset hregister hparen hn => ?_,
    fun token h => hmalformed (splitMemOperand_without_paren h),
    fun rest => hmalformed (splitMemOperand_without_offset rest),
    fun token h => hmalformed (splitMemOperand_unclosed h), fun h => hmalformed (splitMemOperand_without_register h)⟩
  · have hmem := hsplit (ne_nil_and_no_paren_of_readInteger hn) (ne_nil_of_registerOfName hr)
    exact ⟨memForm_of_parts ha hmem hn hr, memForm_of_parts ha hmem hn hr⟩
  · have hmem := hsplit (ne_nil_and_no_paren_of_readInteger hn) hregister
    exact ⟨memForm_of_bad_register ha hmem hn hr, memForm_of_bad_register ha hmem hn hr⟩
  · have hmem := hsplit ⟨hoffset, hparen⟩ hregister
    exact ⟨memForm_of_bad_offset ha hmem hn, memForm_of_bad_offset ha hmem hn⟩

end Sys2Proof.Machine
end

section
/-! SUPPORT. Bring-up (70_reset_and_hazards.md R263). With it the statement about it. -/

namespace Sys2Proof.Machine

section BringUp
variable {c : Config} {text : List Char} {words : List Word} {s : State} {e : AsmError}

/-- A failed assembly is all there is of the bring-up (R230). -/
theorem bringUp_of_error (h : assemble s.config text = .error e) : bringUp text s = .error e := by
  rw [bringUp, h]
  rfl

/-- A program that fits is loaded (R262). -/
theorem bringUp_of_ok (h : assemble s.config text = .ok words) (hfits : words.length ≤ s.config.imemWords) :
    bringUp text s = .ok (fresh s.config words, .ok) := by
  have hload : load words s = .next (fresh s.config words) := (load_eq_next ..).2 ⟨hfits, rfl⟩
  rw [bringUp, h]
  exact congrArg (fun outcome => Except.ok (settleOutcome s outcome)) hload

/-- The PC after a load is the address of the first word, which the next step executes. -/
theorem step_after_load (hc : c.legal = true) (w : Word) (rest : List Word) :
    step (fresh c (w :: rest)) = executeWord w (fresh c (w :: rest)) := by
  have halign : c.baseInstr.toNat % 4 = 0 := legal_baseInstr hc
  have hrun : isFinished (fresh c (w :: rest)) = false := (fresh_isFinished ..).2 (Nat.succ_pos _)
  refine step_of_fetch_ok hrun (iFetch_of_word halign le_rfl ?_)
  show (w :: rest)[(c.baseInstr.toNat - c.baseInstr.toNat) / 4]? = some w
  rw [Nat.sub_self]
  rfl

end BringUp

/-- Settles O59, by what the assembly answers. -/
theorem bringUpLoadsTheProgram : Obligations.BringUpLoadsTheProgram := by
  refine fun text s hc => ⟨fun e => bringUp_of_error, fun words h hfits => ⟨bringUp_of_ok h hfits, ?_⟩⟩
  rintro w rest rfl
  exact step_after_load hc w rest

end Sys2Proof.Machine
end

section
/-! SUPPORT. The causes of a step's errors, one constructor per row of R242, and the register file's contract. With them the
statements about errors (60_exceptions.md). -/

/-! ## Words of no row (R93, R95) -/

namespace Sys2Proof

/-- With a legal map the decoder rejects exactly the words that match none of the fifteen rows. -/
theorem decode_error_iff_no_match {m : OpcodeMap} {w : Word} (hm : m.legal = true) :
    (∃ e, decode m w = .error e) ↔ ∀ p ∈ patternTable m, w &&& p.mask ≠ p.pattern := by
  constructor
  · rintro ⟨e, he⟩ p hp hmatch
    obtain ⟨i, hi, -⟩ := standsFor_of_match hp hmatch
    exact nomatch he.symm.trans (decode_of_standsFor hm hi)
  · intro hnone
    cases hdecode : decode m w with
    | error e => exact ⟨e, rfl⟩
    | ok i =>
      obtain ⟨p, hp, -, hmatch, -⟩ := (standsFor_of_decode hdecode).row
      exact absurd hmatch (hnone p hp)

end Sys2Proof

namespace Sys2Proof.Machine

/-! ## The causes of a step's errors (R242, in the order of R248) -/

/-- The next instruction is the load or the store with this offset and base register (R152). -/
def nextAccess (s : State) (rt : Reg) (offset : Int) (rs : Reg) : Prop :=
  nextInstr s = some (.lw rt offset rs) ∨ nextInstr s = some (.sw rt offset rs)

/-- The error a step ends in, by its cause; no constructor gives the register file's index error (R245). -/
inductive FaultCause (s : State) : Fault → Prop where
  | fetchMisaligned (hrun : s.finished = false) (halign : s.pc.toNat % 4 ≠ 0) : FaultCause s (.fetchMisaligned s.pc)
  | fetchOutOfRange (halign : s.pc.toNat % 4 = 0) (hbase : s.pc.toNat < s.config.baseInstr.toNat) :
      FaultCause s (.fetchOutOfRange s.pc)
  | unsupported (w : Word) (hrun : s.finished = false) (hfetch : iFetch s.pc s = .ok w)
      (hdecode : ∃ e, decode s.config.opcodes w = .error e) : FaultCause s (.unsupportedInstruction w)
  | dataMisaligned (rt : Reg) (offset : Int) (rs : Reg) (hnext : nextAccess s rt offset rs)
      (halign : dataDistance s.config (effectiveAddress offset rs s) % 4 ≠ 0) :
      FaultCause s (.dataMisaligned (effectiveAddress offset rs s))
  | dataOutOfRange (rt : Reg) (offset : Int) (rs : Reg) (hnext : nextAccess s rt offset rs)
      (halign : dataDistance s.config (effectiveAddress offset rs s) % 4 = 0)
      (hrange : s.config.dmemWords ≤ dataDistance s.config (effectiveAddress offset rs s) / 4) :
      FaultCause s (.dataOutOfRange (effectiveAddress offset rs s))
  | zeroWrite (i : Instr) (hpolicy : s.config.zeroWrite = .fail) (hnext : nextInstr s = some i)
      (hwrites : (0 : Reg) ∈ i.writes)
      (haddr : ∀ rt offset rs, i = .lw rt offset rs → dataError s.config (effectiveAddress offset rs s) = none) :
      FaultCause s .zeroRegisterWrite

section Causes
variable {s : State} {i : Instr} {f : Fault}

/-- The next instruction is what the step executes (R114, R118). -/
theorem step_of_nextInstr (h : nextInstr s = some i) : step s = exec i s := by
  cases hrun : s.finished with
  | true => exact nomatch (nextInstr_of_finished hrun).symm.trans h
  | false =>
    cases hfetch : iFetch s.pc s with
    | error f => simp [nextInstr, hrun, hfetch] at h
    | ok w =>
      cases hdecode : decode s.config.opcodes w with
      | error e => simp [nextInstr, hrun, hfetch, hdecode] at h
      | ok j =>
        obtain rfl : j = i := Option.some.inj ((nextInstr_of_decode hrun hfetch hdecode).symm.trans h)
        exact step_eq_exec hrun hfetch hdecode

/-- A load or store whose address the tests reject ends in their error (R153, R154). -/
theorem step_of_dataError {rt rs : Reg} {offset : Int} (hnext : nextAccess s rt offset rs)
    (h : dataError s.config (effectiveAddress offset rs s) = some f) : step s = .fault f := by
  obtain hlw | hsw := hnext
  · exact (step_of_nextInstr hlw).trans (execLw_of_error h)
  · exact (step_of_nextInstr hsw).trans (execSw_of_error h)

/-- Under `fail`, an instruction that writes register 0 ends in the error of that write, a load once its address is legal
(U1, log 4). -/
theorem exec_of_zeroWrite (hpolicy : s.config.zeroWrite = .fail) (hwrites : (0 : Reg) ∈ i.writes)
    (haddr : ∀ rt offset rs, i = .lw rt offset rs → dataError s.config (effectiveAddress offset rs s) = none) :
    exec i s = .fault .zeroRegisterWrite := by
  cases hexec : exec i s with
  | next t =>
    cases exec_effect hexec with
    | noWrite e hnone => simp [hnone] at hwrites
    | register r v e hreg hallowed =>
      obtain rfl : 0 = r := by simpa [hreg] using hwrites
      simp [writeError_none, hpolicy] at hallowed
    | store rt offset rs hsw => simp [hsw, Instr.writes] at hwrites
  | fault f =>
    obtain ⟨rt, offset, rs, hlw | rfl, hdata⟩ | ⟨rfl, -⟩ := exec_fault hexec
    · exact nomatch (haddr rt offset rs hlw).symm.trans hdata
    · exact absurd hwrites List.not_mem_nil
    · rfl
  | refused r => exact absurd hexec exec_ne_refused

/-- The fetch of a machine that is not finished fails only at its two tests: below `END` an aligned PC from the base on has a
word (R51, R53). -/
theorem faultCause_of_fetch_error (hrun : s.finished = false) (h : iFetch s.pc s = .error f) : FaultCause s f := by
  by_cases halign : s.pc.toNat % 4 = 0
  · by_cases hbase : s.pc.toNat < s.config.baseInstr.toNat
    · obtain rfl := Except.error.inj ((iFetch_of_below_base halign hbase).symm.trans h)
      exact .fetchOutOfRange halign hbase
    · have hend := not_finished_iff.1 hrun
      have hindex : (s.pc.toNat - s.config.baseInstr.toNat) / 4 < s.imem.length := by omega
      exact nomatch h.symm.trans (iFetch_of_word halign (Nat.not_lt.1 hbase) (List.getElem?_eq_getElem hindex))
  · obtain rfl := Except.error.inj ((iFetch_of_misaligned halign).symm.trans h)
    exact .fetchMisaligned hrun halign

/-- An instruction fails at its address or at its register write. -/
theorem faultCause_of_exec_fault (hnext : nextInstr s = some i) (h : exec i s = .fault f) : FaultCause s f := by
  obtain ⟨rt, offset, rs, hi, hdata⟩ | ⟨rfl, hpolicy, hwrites, haddr⟩ := exec_fault h
  · have haccess : nextAccess s rt offset rs := by
      obtain rfl | rfl := hi
      exacts [.inl hnext, .inr hnext]
    obtain ⟨rfl, halign⟩ | ⟨rfl, halign, hrange⟩ := dataError_cases hdata
    · exact .dataMisaligned rt offset rs haccess halign
    · exact .dataOutOfRange rt offset rs haccess halign hrange
  · exact .zeroWrite i hpolicy hnext hwrites haddr

/-- A step ends in an error exactly when that error has its cause. -/
theorem step_fault_iff : step s = .fault f ↔ FaultCause s f := by
  constructor
  · intro h
    obtain ⟨hrun, hfetch | ⟨w, hfetch, ⟨hdecode, rfl⟩ | ⟨i, hdecode, hexec⟩⟩⟩ := step_fault_cases h
    · exact faultCause_of_fetch_error hrun hfetch
    · exact .unsupported w hrun hfetch hdecode
    · exact faultCause_of_exec_fault (nextInstr_of_decode hrun hfetch hdecode) hexec
  · intro h
    cases h with
    | fetchMisaligned hrun halign => exact step_of_fetch_error hrun (iFetch_of_misaligned halign)
    | fetchOutOfRange halign hbase =>
      exact step_of_fetch_error (not_finished_iff.2 (Nat.lt_add_right _ hbase)) (iFetch_of_below_base halign hbase)
    | unsupported w hrun hfetch hdecode =>
      obtain ⟨e, he⟩ := hdecode
      simp [step_of_fetch_ok hrun hfetch, executeWord, he, raise]
    | dataMisaligned rt offset rs hnext halign =>
      exact step_of_dataError hnext (dataError_eq_misaligned.2 halign)
    | dataOutOfRange rt offset rs hnext halign hrange =>
      exact step_of_dataError hnext (dataError_eq_outOfRange.2 ⟨halign, hrange⟩)
    | zeroWrite i hpolicy hnext hwrites haddr =>
      exact (step_of_nextInstr hnext).trans (exec_of_zeroWrite hpolicy hwrites haddr)

/-- No step ends in the register file's index error (R245, log 19). -/
theorem step_ne_regIndexOutOfRange (s : State) (k : Int) : step s ≠ .fault (.regIndexOutOfRange k) :=
  fun h => nomatch step_fault_iff.1 h

end Causes

/-- Settles O40: each error of a step, by the cause it has and the step that cause makes. -/
theorem eachErrorHasItsCause : Obligations.EachErrorHasItsCause := by
  intro s
  simp only [step_fault_iff, ← dataDistance_eq_toNat_sub]
  refine ⟨fun p => ⟨fun h => ?_, ?_⟩, fun p => ⟨fun h => ?_, ?_⟩, fun hmap w => ⟨fun h => ?_, ?_⟩,
    fun ea => ⟨fun h => ?_, ?_⟩, fun ea => ⟨fun h => ?_, ?_⟩, step_ne_regIndexOutOfRange s, ⟨fun h => ?_, ?_⟩,
    fun p k => ⟨rfl, rfl, rfl, rfl, rfl, rfl, rfl⟩⟩
  · cases h with
    | fetchMisaligned hrun halign => exact ⟨rfl, not_finished_iff.1 hrun, halign⟩
  · rintro ⟨rfl, hrun, halign⟩
    exact .fetchMisaligned (not_finished_iff.2 hrun) halign
  · cases h with
    | fetchOutOfRange halign hbase => exact ⟨rfl, halign, hbase⟩
  · rintro ⟨rfl, halign, hbase⟩
    exact .fetchOutOfRange halign hbase
  · cases h with
    | unsupported w hrun hfetch hdecode => exact ⟨hrun, hfetch, (decode_error_iff_no_match hmap).1 hdecode⟩
  · rintro ⟨hrun, hfetch, hnone⟩
    exact .unsupported w hrun hfetch ((decode_error_iff_no_match hmap).2 hnone)
  · cases h with
    | dataMisaligned rt offset rs hnext halign => exact ⟨rt, offset, rs, hnext, rfl, halign⟩
  · rintro ⟨rt, offset, rs, hnext, rfl, halign⟩
    exact .dataMisaligned rt offset rs hnext halign
  · cases h with
    | dataOutOfRange rt offset rs hnext halign hrange => exact ⟨rt, offset, rs, hnext, rfl, halign, hrange⟩
  · rintro ⟨rt, offset, rs, hnext, rfl, halign, hrange⟩
    exact .dataOutOfRange rt offset rs hnext halign hrange
  · cases h with
    | zeroWrite i hpolicy hnext hwrites haddr => exact ⟨hpolicy, i, hnext, hwrites, haddr⟩
  · rintro ⟨hpolicy, i, hnext, hwrites, haddr⟩
    exact .zeroWrite i hpolicy hnext hwrites haddr

/-! ## An error as the host sees it (R241, R243) -/

section HostErrors
variable {s u : State} {f : Fault}

/-- A host step that reports an error was a step of a machine that is not finished, and left the state as it was. -/
theorem hostStep_error (h : hostStep s = (u, .error f)) : u = s ∧ s.finished = false := by
  cases hrun : s.finished with
  | true => simp [hostStep, hrun] at h
  | false =>
    cases hstep : step s with
    | next t => exact nomatch congrArg Prod.snd ((hostStep_of_next hrun hstep).symm.trans h)
    | fault g => exact ⟨(congrArg Prod.fst ((hostStep_of_fault hrun hstep).symm.trans h)).symm, rfl⟩
    | refused r => exact absurd hstep step_ne_refused

/-- A run stops at the first error (R120). -/
theorem runFor_of_error (n : Nat) (h : hostStep s = (u, .error f)) : runFor (n + 1) s = (u, .error f) := by
  rw [runFor, h]

end HostErrors

/-- Settles O41: a step that reports an error leaves its state, from which the next step is the same step. -/
theorem errorChangesNothingAndRepeats : Obligations.ErrorChangesNothingAndRepeats := by
  intro s u f h
  obtain ⟨rfl, hrun⟩ := hostStep_error h
  exact ⟨rfl, hrun, h, fun n => runFor_of_error n h⟩

/-! ## The register file's contract (R24, R25, R245) -/

section RegisterFile
variable {s : State} {index : Int} {v : Word} {r : Reg}

/-- The indices in `[0, 31]` are the numbers of the registers. -/
theorem exists_reg_of_index : 0 ≤ index ∧ index ≤ 31 ↔ ∃ r : Reg, index = (r.val : Int) := by
  constructor
  · rintro ⟨h₀, h₃₁⟩
    exact ⟨⟨index.toNat, by omega⟩, (Int.toNat_of_nonneg h₀).symm⟩
  · rintro ⟨r, rfl⟩
    omega

/-- Outside `[0, 31]` a read and a write fail with the index (R25). -/
theorem regFile_of_outside (h : ¬(0 ≤ index ∧ index ≤ 31)) :
    regFileRead index s = .error (.regIndexOutOfRange index) ∧
      regFileWrite index v s = .error (.regIndexOutOfRange index) := by
  have hnone : registerOfIndex index = none := dif_neg fun hin => h ⟨hin.1, Int.le_of_lt_add_one hin.2⟩
  rw [regFileRead, regFileWrite, hnone]
  exact ⟨rfl, rfl⟩

/-- A write at a register's number is accepted exactly where the policy allows it (R24). -/
theorem regFileWrite_ok_iff : (∃ t, regFileWrite (r.val : Int) v s = .ok t) ↔ writeAllowed r s := by
  rw [writeAllowed, ← writeError_none, regFileWrite, registerOfIndex_eq_some.2 rfl]
  cases herror : writeError r s <;> simp [herror]

/-- Under `fail` a write at index 0 is its own error (R24, U1). -/
theorem regFileWrite_zero_of_fail (h : s.config.zeroWrite = .fail) :
    regFileWrite 0 v s = .error .zeroRegisterWrite := by
  have hzero : registerOfIndex 0 = some 0 := rfl
  rw [regFileWrite, hzero]
  simp only [(writeError_some ..).2 ⟨rfl, rfl, h⟩]

end RegisterFile

/-- Settles O9: the register file by whether the index is that of a register, and the steps by the causes of their errors. -/
theorem registerIndexErrorOnlyOutsideRange : Obligations.RegisterIndexErrorOnlyOutsideRange := by
  refine ⟨fun index v s => ⟨⟨fun hin => ?_, ?_⟩, ?_, fun hout => regFile_of_outside (by omega), ?_⟩,
    step_ne_regIndexOutOfRange⟩
  · obtain ⟨r, rfl⟩ := exists_reg_of_index.1 hin
    exact ⟨_, regFileRead_val r s⟩
  · rintro ⟨x, hread⟩
    by_contra hout
    exact nomatch (regFile_of_outside (v := v) hout).1.symm.trans hread
  · by_cases hin : 0 ≤ index ∧ index ≤ 31
    · obtain ⟨r, rfl⟩ := exists_reg_of_index.1 hin
      have hzero : (r.val : Int) = 0 ↔ r = 0 := by rw [Fin.ext_iff]; exact Int.natCast_eq_zero
      rw [regFileWrite_ok_iff, ← and_assoc, and_iff_right hin, Ne, hzero]
    · rw [(regFile_of_outside hin).2]
      exact iff_of_false (fun h => hin ⟨h.1, h.2.1⟩) nofun
  · rintro rfl hpolicy
    exact regFileWrite_zero_of_fail hpolicy

end Sys2Proof.Machine
end

section
/-! SUPPORT. What a reset and a load leave of the state before, and what a load answers (70_reset_and_hazards.md R261, R262).
With it the statements about reset and load. -/

namespace Sys2Proof.Machine

section ResetAndLoad
variable {s u : State} {words : List Word}

/-- The registers of a fresh state: only `$sp` is not zero (R41). -/
theorem fresh_readReg_eq (c : Config) (program : List Word) (r : Reg) :
    readReg r (fresh c program) = if r = 29 then c.baseData else 0#32 := by
  split
  · next hsp => exact hsp ▸ fresh_stackPointer c program
  · next hother => exact fresh_readReg c program hother

/-- Of the state before, a reset depends on the configuration and the program only (R261). -/
theorem hostReset_congr (himem : s.imem = u.imem) (hconfig : s.config = u.config) : hostReset s = hostReset u := by
  rw [hostReset_eq_fresh, hostReset_eq_fresh, himem, hconfig]

/-- A reset keeps what it depends on, so a second one changes nothing (R261). -/
theorem hostReset_hostReset (s : State) : hostReset (hostReset s) = hostReset s :=
  hostReset_congr rfl rfl

/-- A machine with a program runs after a reset (R33, R261). -/
theorem hostReset_runs (hprogram : s.imem ≠ []) : isFinished (hostReset s) = false :=
  (fresh_isFinished s.config s.imem).2 (List.length_pos_of_ne_nil hprogram)

/-- A program that fits is loaded into a fresh state (R262). -/
theorem load_of_fits (hfits : words.length ≤ s.config.imemWords) : load words s = .next (fresh s.config words) :=
  (load_eq_next ..).2 ⟨hfits, rfl⟩

/-- A program that is too long is refused with its length (R262). -/
theorem load_of_too_long (htoo : s.config.imemWords < words.length) :
    load words s = .refused (.programTooLong words.length) :=
  if_neg (by simpa [programFits] using htoo)

end ResetAndLoad

/-- Settles O43: a reset gives the fresh state of the configuration and the program, which it keeps. -/
theorem resetForgetsEverythingButProgram : Obligations.ResetForgetsEverythingButProgram :=
  fun s _ => ⟨rfl, rfl, rfl, fresh_readReg_eq s.config s.imem, fun k _ => fresh_slotWord s.config s.imem k, rfl, rfl,
    hostReset_congr, hostReset_hostReset s, hostReset_runs⟩

/-- Settles O44, by whether the program fits; the load event settles what the load answers. -/
theorem loadReplacesOrRefuses : Obligations.LoadReplacesOrRefuses := by
  refine fun words s u => ⟨fun htoo => ?_, fun hfits => ?_⟩
  · have hload := load_of_too_long htoo
    exact ⟨hload, congrArg (settleOutcome s) hload⟩
  · have hload := load_of_fits hfits
    refine ⟨hload, fun hconfig => ?_, congrArg (settleOutcome s) hload⟩
    rw [hload, load_of_fits (hconfig ▸ hfits), hconfig]

end Sys2Proof.Machine
end
